-- ==== Sys2Proof/Word.lean ====
section
/-! DEFINITION. The word types of the block: a byte, a 16-bit field of an inbound frame, a request argument. -/

namespace Sys2Proof

/-- A byte, an integer 0..255 (R13). -/
abbrev Byte := BitVec 8

/-- A 16-bit field of an inbound frame, unsigned (u16 of R13). -/
abbrev Half := BitVec 16

/-- A request argument or a STATUS word (u32 of R13). -/
abbrev Word := BitVec 32

end Sys2Proof
end

