-- ==== Sys2Proof/Config.lean ====
section
/-! DEFINITION. The fixed constants (R6, R10, R12) and the parameters (R7, R8, R9, R11) of the block. -/

namespace Sys2Proof

/-- CMD_SYNC (R6): byte 0 of every command frame. -/
def cmdSync : Byte := 0xA5#8
/-- HDR_BYTE (R6): each of the two header bytes of an inbound frame. -/
def hdrByte : Byte := 0x5A#8
/-- TEMP_TYPE (R6): the type marker of a temperature frame, bytes 0x02 then 0x06. -/
def tempType : Half := 0x0602#16
/-- FRAME_SIZE (R6): bytes in a temperature frame. -/
def frameSize : Nat := 1544
/-- N_SAMPLES (R6): samples in a temperature frame. -/
def nSamples : Nat := 768
/-- SAMPLE_OFFSET (R6). -/
def sampleOffset : Nat := 4
/-- AMBIENT_OFFSET (R6). -/
def ambientOffset : Nat := 1540
/-- CHECKSUM_OFFSET (R6). -/
def checksumOffset : Nat := 1542
/-- EMIS_FRAME_SIZE (R6): bytes in an emissivity-acknowledgement frame. -/
def emisFrameSize : Nat := 4
/-- MIN_DECIDE (R6): fewest buffered bytes at which the scanner takes a decision. -/
def minDecide : Nat := 4
/-- GRID_W (R12): columns of the grid a consumer may read. -/
def gridW : Nat := 32
/-- GRID_H (R12): rows of that grid. -/
def gridH : Nat := 24

/-- FREQ_CODE (R9): the payload byte for each of the five update frequencies. -/
structure FreqCode where
  /-- 0.5 Hz -/
  half : Byte
  /-- 1 Hz -/
  one : Byte
  /-- 2 Hz -/
  two : Byte
  /-- 4 Hz -/
  four : Byte
  /-- 8 Hz -/
  eight : Byte
  deriving DecidableEq, Repr

/-- The parameters of the block; fixed for its lifetime, so no step changes them (R7). -/
structure Config where
  /-- CAP, the buffer capacity in bytes (R7). -/
  cap : Nat
  /-- EV_DEPTH, the event-queue depth (R8). -/
  evDepth : Nat
  /-- FREQ_CODE (R9). -/
  freqCode : FreqCode
  /-- DBG_TRACE (R11). -/
  dbgTrace : Bool
  deriving DecidableEq, Repr

/-- The §6 table, the default of FREQ_CODE (R9; 90_conflicts.md C2). -/
def FreqCode.default : FreqCode := ⟨0x00#8, 0x01#8, 0x02#8, 0x03#8, 0x04#8⟩

/-- Every parameter at its default (R7, R8, R9, R11). -/
def Config.default : Config := ⟨2048, 1, FreqCode.default, false⟩

/-- The ranges of the parameters: `2048 ≤ CAP ≤ 65535` (R7) and `1 ≤ EV_DEPTH` (R8). -/
abbrev Config.Ok (c : Config) : Prop := 2048 ≤ c.cap ∧ c.cap ≤ 65535 ∧ 1 ≤ c.evDepth

end Sys2Proof
end

