-- ==== Sys2Proof/Syntax.lean ====
section
/-! DEFINITION. The operations of the block: one constructor per row of spec/opcode_table.json, and the transfers
that carry them. -/

namespace Sys2Proof

/-- One constructor per row of the opcode table. The block is not a processor; an operation plays the part of an
instruction (R3). -/
inductive Instr where
  /-- SET_BITRATE, request op 0 (R103): `arg` in bits per second. -/
  | setBitrate (arg : Word)
  /-- SET_UPDFREQ, request op 1 (R104): `arg` in half-hertz. -/
  | setUpdfreq (arg : Word)
  /-- QUERY, request op 2 (R105): `arg` is carried and ignored. -/
  | query (arg : Word)
  /-- AUTOMATIC, request op 3 (R106): `arg` is carried and ignored. -/
  | automatic (arg : Word)
  /-- SET_EMIS, request op 4 (R107): `arg` is an i32 in hundredths. -/
  | setEmis (arg : Word)
  /-- GET_EMIS, request op 5 (R108): `arg` is carried and ignored. -/
  | getEmis (arg : Word)
  /-- SAVE, request op 6 (R109): `arg` is carried and ignored. -/
  | save (arg : Word)
  /-- ILLEGAL_OP7, request op 7 (R110): `arg` is carried and ignored. -/
  | illegalOp7 (arg : Word)
  /-- CMD_SET_BITRATE, the frame A5 15 payload checksum (R72, R74) leaving on the response port. -/
  | cmdSetBitrate (payload checksum : Byte)
  /-- CMD_SET_UPDFREQ, the frame A5 25 payload checksum (R72, R75). -/
  | cmdSetUpdfreq (payload checksum : Byte)
  /-- CMD_QUERY, the frame A5 35 01 DB (R76). -/
  | cmdQuery
  /-- CMD_AUTOMATIC, the frame A5 35 02 DC (R76). -/
  | cmdAutomatic
  /-- CMD_SET_EMIS, the frame A5 45 payload checksum (R77). -/
  | cmdSetEmis (payload checksum : Byte)
  /-- CMD_GET_EMIS, the frame A5 55 01 FB (R78). -/
  | cmdGetEmis
  /-- CMD_SAVE, the frame A5 65 01 0B (R78). -/
  | cmdSave
  /-- TEMP_FRAME, format TEMP (R83): a complete temperature candidate at buffer offset 0. The operands are the raw
  16-bit fields, before `s16`. -/
  | tempFrame (samples : List Half) (ambient checksum : Half)
  /-- EMIS_FRAME, format EMIS (R84): an emissivity candidate at buffer offset 0. -/
  | emisFrame (value checksum : Byte)
  /-- RX_PUSH, one received byte (R130). -/
  | rxPush (data : Byte)
  /-- RESET, assertion of `rst` (R230). -/
  | reset
  /-- STATUS_READ (R135). -/
  | statusRead
  deriving DecidableEq, Repr

/-- What crosses a port, or stands at buffer offset 0, in the formats of the opcode table. -/
inductive Transfer where
  /-- A request word on the command request port (format REQ35, R70). -/
  | req35 (w : BitVec 35)
  /-- Four bytes in wire order on the command response port (format CMD, R72). -/
  | cmd (b0 b1 b2 b3 : Byte)
  /-- The bytes from buffer offset 0 on (formats TEMP and EMIS, R83 and R84). -/
  | inbound (bytes : List Byte)
  /-- A byte on the receive port (format RX8, R34). -/
  | rx8 (b : Byte)
  /-- Assertion of the reset input (format RST, R37). -/
  | rst
  /-- A read of the status word (format STATUS32, R36). -/
  | status
  deriving DecidableEq, Repr

end Sys2Proof
end

