-- ==== Sys2Proof/WellFormed.lean ====
section
/-! DEFINITION. Which operations have an encoding: the checks on operands that the formats of the opcode table make. -/

namespace Sys2Proof

/-- The operands have an encoding of their row. A TEMP frame has exactly 768 samples (R83). An EMIS frame's value and
checksum bytes are not (02, 06), which would be the temperature type (R82, R151). Every other row's operands are free. -/
def Instr.wellFormed : Instr → Bool
  | .setBitrate _ => true
  | .setUpdfreq _ => true
  | .query _ => true
  | .automatic _ => true
  | .setEmis _ => true
  | .getEmis _ => true
  | .save _ => true
  | .illegalOp7 _ => true
  | .cmdSetBitrate _ _ => true
  | .cmdSetUpdfreq _ _ => true
  | .cmdQuery => true
  | .cmdAutomatic => true
  | .cmdSetEmis _ _ => true
  | .cmdGetEmis => true
  | .cmdSave => true
  | .tempFrame samples _ _ => decide (samples.length = nSamples)
  | .emisFrame value checksum => !(decide (value = 0x02#8) && decide (checksum = 0x06#8))
  | .rxPush _ => true
  | .reset => true
  | .statusRead => true

/-- `Instr.wellFormed` as a proposition. -/
abbrev Instr.WellFormed (i : Instr) : Prop := i.wellFormed = true

end Sys2Proof
end

