-- ==== Sys2Proof/Decode.lean ====
section
/-! DEFINITION. The decoder and the encoder of the six formats (30_encoding.md), and the opcode table's numbering. -/

namespace Sys2Proof

/-! ### Byte order -/

/-- `le16` of two consecutive bytes: the byte at the lower offset is the less significant (R15).
PRESUMED: the reading of "little-endian" is the spec's general knowledge K-G2 (log 17). -/
def le16 (lo hi : Byte) : Half := BitVec.ofNat 16 (lo.toNat + 256 * hi.toNat)

/-- The less significant byte of a 16-bit field, the one at the lower offset (R15). -/
def loByte (w : Half) : Byte := w.setWidth 8

/-- The more significant byte of a 16-bit field, the one at the higher offset (R15). -/
def hiByte (w : Half) : Byte := (w >>> 8).setWidth 8

/-- The little-endian words at offsets 0, 2, 4, … of a byte sequence (R54); an odd last byte makes no word. -/
def words : List Byte → List Half
  | lo :: hi :: rest => le16 lo hi :: words rest
  | _ => []

/-- The bytes of a sequence of 16-bit fields, little-endian (R54). -/
def unwords : List Half → List Byte
  | [] => []
  | w :: rest => loByte w :: hiByte w :: unwords rest

/-! ### Decoding -/

/-- Why a transfer holds no operation. -/
inductive DecodeError where
  /-- Fewer than 4 bytes at buffer offset 0 (the decision SHORT, R153). -/
  | short
  /-- No header 5A 5A at buffer offset 0 (the decision RESYNC, R154). -/
  | noHeader
  /-- A temperature candidate of fewer than 1544 bytes (the decision TEMP_WAIT, R155). -/
  | incomplete
  /-- A response frame whose byte 0 is not A5 (R72). -/
  | noSync
  /-- A response frame with none of the opcode bytes of R73. -/
  | unknownOpcode
  /-- A response frame with a fixed opcode and other bytes after it than the fixed ones (R76, R78). -/
  | wrongFixedBytes
  deriving DecidableEq, Repr

/-- Decodes a request word: `op` in bits 34:32, `arg` in bits 31:0 (R70). Every selector is a row, so it is total. -/
def decodeReq (w : BitVec 35) : Instr :=
  let op := (w.extractLsb' 32 3).toNat
  let arg := w.extractLsb' 0 32
  match op with
  | 0 => .setBitrate arg
  | 1 => .setUpdfreq arg
  | 2 => .query arg
  | 3 => .automatic arg
  | 4 => .setEmis arg
  | 5 => .getEmis arg
  | 6 => .save arg
  | _ => .illegalOp7 arg

/-- Decodes four bytes on the response port, by the opcode map of R73. -/
def decodeCmd (b0 b1 b2 b3 : Byte) : Except DecodeError Instr :=
  if b0 ≠ cmdSync then .error .noSync
  else if b1 = 0x15#8 then .ok (.cmdSetBitrate b2 b3)
  else if b1 = 0x25#8 then .ok (.cmdSetUpdfreq b2 b3)
  else if b1 = 0x35#8 then
    if b2 = 0x01#8 ∧ b3 = 0xDB#8 then .ok .cmdQuery
    else if b2 = 0x02#8 ∧ b3 = 0xDC#8 then .ok .cmdAutomatic
    else .error .wrongFixedBytes
  else if b1 = 0x45#8 then .ok (.cmdSetEmis b2 b3)
  else if b1 = 0x55#8 then
    if b2 = 0x01#8 ∧ b3 = 0xFB#8 then .ok .cmdGetEmis else .error .wrongFixedBytes
  else if b1 = 0x65#8 then
    if b2 = 0x01#8 ∧ b3 = 0x0B#8 then .ok .cmdSave else .error .wrongFixedBytes
  else .error .unknownOpcode

/-- The fields of a temperature frame after its first four bytes: 768 samples, the ambient, the checksum (R83). -/
def tempFields (ws : List Half) : Except DecodeError Instr :=
  match ws.drop nSamples with
  | [ambient, checksum] => .ok (.tempFrame (ws.take nSamples) ambient checksum)
  | _ => .error .incomplete

/-- Decodes the bytes from buffer offset 0 on and returns the frame found there with the bytes after it (R82, R85). -/
def decodeStream : List Byte → Except DecodeError (Instr × List Byte)
  | b0 :: b1 :: b2 :: b3 :: rest =>
    if ¬ (b0 = hdrByte ∧ b1 = hdrByte) then .error .noHeader
    else if le16 b2 b3 = tempType then
      if rest.length < frameSize - 4 then .error .incomplete
      else
        match tempFields (words (rest.take (frameSize - 4))) with
        | .ok i => .ok (i, rest.drop (frameSize - 4))
        | .error e => .error e
    else .ok (.emisFrame b2 b3, rest)
  | _ => .error .short

/-- Decodes a transfer, total on any transfer and rejecting by name; the bytes after an inbound frame are dropped. -/
def decode : Transfer → Except DecodeError Instr
  | .req35 w => .ok (decodeReq w)
  | .cmd b0 b1 b2 b3 => decodeCmd b0 b1 b2 b3
  | .inbound bytes =>
    match decodeStream bytes with
    | .ok r => .ok r.1
    | .error e => .error e
  | .rx8 b => .ok (.rxPush b)
  | .rst => .ok .reset
  | .status => .ok .statusRead

/-! ### Encoding -/

/-- A request word: the selector in bits 34:32 and the argument in bits 31:0 (R70). -/
def reqWord (op : BitVec 3) (arg : Word) : BitVec 35 := op ++ arg

/-- The bytes of a TEMP frame (R83). -/
def tempBytes (samples : List Half) (ambient checksum : Half) : List Byte :=
  [hdrByte, hdrByte, loByte tempType, hiByte tempType] ++ unwords (samples ++ [ambient, checksum])

/-- The bytes of an EMIS frame (R84). -/
def emisBytes (value checksum : Byte) : List Byte := [hdrByte, hdrByte, value, checksum]

/-- The transfer that carries an operation, from the formats of 30_encoding.md. -/
def encode : Instr → Transfer
  | .setBitrate arg => .req35 (reqWord 0#3 arg)
  | .setUpdfreq arg => .req35 (reqWord 1#3 arg)
  | .query arg => .req35 (reqWord 2#3 arg)
  | .automatic arg => .req35 (reqWord 3#3 arg)
  | .setEmis arg => .req35 (reqWord 4#3 arg)
  | .getEmis arg => .req35 (reqWord 5#3 arg)
  | .save arg => .req35 (reqWord 6#3 arg)
  | .illegalOp7 arg => .req35 (reqWord 7#3 arg)
  | .cmdSetBitrate payload checksum => .cmd cmdSync 0x15#8 payload checksum
  | .cmdSetUpdfreq payload checksum => .cmd cmdSync 0x25#8 payload checksum
  | .cmdQuery => .cmd cmdSync 0x35#8 0x01#8 0xDB#8
  | .cmdAutomatic => .cmd cmdSync 0x35#8 0x02#8 0xDC#8
  | .cmdSetEmis payload checksum => .cmd cmdSync 0x45#8 payload checksum
  | .cmdGetEmis => .cmd cmdSync 0x55#8 0x01#8 0xFB#8
  | .cmdSave => .cmd cmdSync 0x65#8 0x01#8 0x0B#8
  | .tempFrame samples ambient checksum => .inbound (tempBytes samples ambient checksum)
  | .emisFrame value checksum => .inbound (emisBytes value checksum)
  | .rxPush data => .rx8 data
  | .reset => .rst
  | .statusRead => .status

/-! ### The opcode table's numbering -/

/-- Byte `k` of a 32-bit packed frame: wire byte 0 is bits 31:24 (R72; the table packs TEMP and EMIS alike). -/
def packedByte (w k : Nat) : Byte := BitVec.ofNat 8 (w / 2 ^ (24 - 8 * k))

/-- The transfer that a row's bits stand for. The port is no bit of the word, so the row's width in whole bytes names
it: 40 bits a request, 8 bits a received byte, 24 bits a status read, none a reset (log 14). A 32-bit row is a packed
frame told apart by its first byte or bytes (R72, R81), or a status word, whose bits 31:21 are 0 (R36). An inbound frame
is filled up with bytes of 0 to the longest frame. -/
def tableTransfer (nbits w : Nat) : Option Transfer :=
  match nbits with
  | 0 => if w = 0 then some .rst else none
  | 8 => if w < 2 ^ 8 then some (.rx8 (BitVec.ofNat 8 w)) else none
  | 24 => if w < 2 ^ 21 then some .status else none
  | 32 =>
    if ¬ w < 2 ^ 32 then none
    else if packedByte w 0 = cmdSync then
      some (.cmd (packedByte w 0) (packedByte w 1) (packedByte w 2) (packedByte w 3))
    else if packedByte w 0 = hdrByte ∧ packedByte w 1 = hdrByte then
      some (.inbound (packedByte w 0 :: packedByte w 1 :: packedByte w 2 :: packedByte w 3 ::
        List.replicate (frameSize - 4) 0x00#8))
    else if w < 2 ^ 21 then some .status
    else none
  | 35 => if w < 2 ^ 35 then some (.req35 (BitVec.ofNat 35 w)) else none
  | 40 => if w < 2 ^ 35 then some (.req35 (BitVec.ofNat 35 w)) else none
  | _ => none

/-- The operation the decoder reads from a row's bits, numbered as spec/opcode_table.json numbers them. -/
def decodeTableWord (nbits w : Nat) : Option Instr :=
  match tableTransfer nbits w with
  | some t =>
    match decode t with
    | .ok i => some i
    | .error _ => none
  | none => none

end Sys2Proof
end

