-- ==== Sys2Proof/Machine/Operands.lean ====
section
/-! DEFINITION. Operand assembly: the signed readings and the clamp (R15), the parameter code tables (R9, R10), request
arguments (R86) and the fields of an inbound frame (R87). -/

namespace Sys2Proof.Machine

/-- `s16(u) = u − 65536 if u ≥ 32768, else u` (R15). PRESUMED: two's complement is the spec's general knowledge K-G1
(log 17). -/
def s16 (u : Half) : Int := if 32768 ≤ u.toNat then (u.toNat : Int) - 65536 else u.toNat

/-- `s32(a) = a − 2^32 if a ≥ 2^31, else a` (R15). -/
def s32 (a : Word) : Int := if 2 ^ 31 ≤ a.toNat then (a.toNat : Int) - 2 ^ 32 else a.toNat

/-- `clamp(x, lo, hi)` (R15). -/
def clamp (x lo hi : Int) : Int := if x < lo then lo else if hi < x then hi else x

/-- BITRATE_CODE (R10, R74): the payload for a bit rate in bits per second. -/
def bitrateCode (rate : Word) : Option Byte :=
  if rate = 9600#32 then some 0x01#8
  else if rate = 115200#32 then some 0x02#8
  else if rate = 460800#32 then some 0x03#8
  else none

/-- FREQ_CODE(f2 / 2) for an update frequency `f2` in half-hertz (R9, R75, R104). -/
def freqCode (table : FreqCode) (f2 : Word) : Option Byte :=
  if f2 = 1#32 then some table.half
  else if f2 = 2#32 then some table.one
  else if f2 = 4#32 then some table.two
  else if f2 = 8#32 then some table.four
  else if f2 = 16#32 then some table.eight
  else none

/-- The emissivity-set payload: the argument read as an i32 in hundredths, clamped to 0..100 (R77, R86, R107). -/
def emisPayload (arg : Word) : Byte := BitVec.ofInt 8 (clamp (s32 arg) 0 100)

/-- The samples of a TEMP frame: `s16(le16(F, 4 + 2k))` for k = 0..767, in ascending k (R182). -/
def samplesOf (F : List Byte) : List Int :=
  (words ((F.drop sampleOffset).take (2 * nSamples))).map s16

/-- The 16-bit word at offset `o` of a frame, where the frame has one (R15). -/
def wordAt (F : List Byte) (o : Nat) : Option Half :=
  match F.drop o with
  | lo :: hi :: _ => some (le16 lo hi)
  | _ => none

end Sys2Proof.Machine
end

