-- ==== Sys2Proof/Machine/State.lean ====
section
/-! DEFINITION. The state of the block and of the host's side of its ports, as plain data; its reset values. -/

namespace Sys2Proof.Machine

/-- Why a step could stop with a fault. The block has no trap (R209); these two guard what the spec says never happens. -/
inductive Fault where
  /-- Raised by `memRead` for a read at or above LEN, illegal by R16. Safe: no step raises it (R164). -/
  | readBeyondFill
  /-- Raised by `compact` for COMPACT(k) with k > LEN, which "never happens" (R132). Safe: no step raises it. -/
  | compactBeyondFill
  deriving DecidableEq, Repr

/-- Why a step could have no meaning. -/
inductive Refusal where
  /-- Raised by an arm of `exec` whose operation has no meaning yet. Safe. No arm raises it. -/
  | notModelled (mnemonic : String)
  deriving DecidableEq, Repr

/-- The response slot RSP (R25, R71). -/
inductive Response where
  | empty
  /-- Four bytes in wire order (R71). -/
  | frame (b0 b1 b2 b3 : Byte)
  /-- An error record; the codes are in R200. -/
  | error (code info : Byte)
  deriving DecidableEq, Repr

/-- An event record (R188). Samples and ambient are i16 values in hundredths, held as the integers they are. -/
inductive Event where
  | temp (samples : List Int) (ambient : Int)
  | emis (value : Byte)
  deriving DecidableEq, Repr

/-- The kinds of decision the scanner takes (R19, R151). -/
inductive Decision where
  | short
  | resync
  | tempWait
  | tempAccept
  | tempReject
  | emisAccept
  | emisReject
  deriving DecidableEq, Repr

/-- A record of the debug decision trace: the decision and its advance (R166). -/
structure TraceRecord where
  decision : Decision
  advance : Nat
  deriving DecidableEq, Repr

/-- The next move, and the agent that makes it (R20, R39). -/
inductive Turn where
  /-- Encoder: accept the request at the head of `reqIn` (R101). -/
  | request
  /-- Host: take the response (R33). -/
  | takeResponse
  /-- Host and block: transfer the byte at the head of `rxIn` (R34). -/
  | receive
  /-- Host: withdraw the byte at the head of `rxIn`, which drops it (R235). -/
  | withdrawByte
  /-- Scanner: one SCAN step (R152). -/
  | scan
  /-- Host: take the event at the head of EVQ (R35). -/
  | takeEvent
  /-- Host: read STATUS (R36). -/
  | readStatus
  /-- Host: assert reset (R37). -/
  | reset
  deriving DecidableEq, Repr

/-- The inbound path (R41): buffer, overflow flag, event queue, and the ghost counters and trace that go with them. -/
structure Inbound where
  /-- B, the valid prefix of BUF; LEN is its length (R21, R22). -/
  buf : List Byte
  /-- OVF, sticky (R23). -/
  ovf : Bool
  /-- EVQ, head first (R24). -/
  evq : List Event
  /-- IN, ghost (R31). -/
  inCount : Nat
  /-- POS, ghost: the stream position (R28, R31). -/
  posCount : Nat
  /-- S, ghost: the accepted bytes in acceptance order (R31). -/
  stream : List Byte
  /-- What the trace port has output since RESET, oldest first (R38, R166). -/
  trace : List TraceRecord
  deriving DecidableEq, Repr

/-- The host's side of the ports. The model's own fields, not the block's state (log 5, log 6). -/
structure HostSide where
  /-- Requests the host presents, in order; `req_valid` is "not empty" (R32). -/
  reqIn : List (BitVec 35)
  /-- Bytes the host presents, in arrival order; `rx_valid` is "not empty" (R34). -/
  rxIn : List Byte
  /-- The moves to make next, in order. Empty: the fixed order of `nextTurn`. -/
  sched : List Turn
  /-- The host has promised to take responses and events (R242). -/
  promise : Bool
  /-- Responses the host has taken, oldest first (R33). -/
  rspOut : List Response
  /-- Event records the host has taken, oldest first (R35). -/
  evOut : List Event
  /-- STATUS words the host has read, oldest first (R36). -/
  statusOut : List Word
  deriving DecidableEq, Repr

/-- The whole state. -/
structure State where
  /-- The parameters (R7, R8, R9, R11); no step changes them. -/
  cfg : Config
  /-- RSP, the command path's only state (R25, R41). -/
  rsp : Response
  /-- The inbound path (R41). -/
  inb : Inbound
  /-- The host's side of the ports. -/
  host : HostSide
  deriving DecidableEq, Repr

/-- The inbound path after RESET (R40). -/
def Inbound.reset : Inbound :=
  { buf := [], ovf := false, evq := [], inCount := 0, posCount := 0, stream := [], trace := [] }

/-- The host's side with nothing presented, taken or scheduled. DESIGN CHOICE (log 5, log 6). -/
def HostSide.reset : HostSide :=
  { reqIn := [], rxIn := [], sched := [], promise := false, rspOut := [], evOut := [], statusOut := [] }

/-- The machine right after RESET with parameters `c` (R40, R42). -/
def State.resetWith (c : Config) : State :=
  { cfg := c, rsp := .empty, inb := Inbound.reset, host := HostSide.reset }

/-- The machine right after RESET with the default parameters. -/
def State.reset : State := State.resetWith Config.default

/-- The state with another response slot. -/
def State.setRsp (s : State) (r : Response) : State := { s with rsp := r }

/-- The state with another inbound path. -/
def State.setInb (s : State) (n : Inbound) : State := { s with inb := n }

/-- The state with another host side. -/
def State.setHost (s : State) (h : HostSide) : State := { s with host := h }

end Sys2Proof.Machine
end

