-- ==== Sys2Proof/Machine/Flags.lean ====
section
/-! DEFINITION. The checksums (R79, R180, R186), the quiescence predicate (R150), and the status word with its derived
flags (R29, R36). -/

namespace Sys2Proof.Machine

/-- The command checksum `(b0 + b1 + b2) mod 256` (R79). -/
def cs8 (b0 b1 b2 : Byte) : Byte := BitVec.ofNat 8 (b0.toNat + b1.toNat + b2.toNat)

/-- The emissivity checksum `(0x5A + 0x5A + v) mod 256` (R186). -/
def ecs (v : Byte) : Byte := BitVec.ofNat 8 (0x5A + 0x5A + v.toNat)

/-- `tsum(F)`, the temperature checksum: the sum of the 771 words at frame offsets 0..1540, mod 65536 (R180). -/
def tempSum (F : List Byte) : Half :=
  BitVec.ofNat 16 (((words (F.take checksumOffset)).map BitVec.toNat).sum)

/-- `Quiescent(B)` (R150): SHORT, or a temperature candidate that waits. -/
def quiescent (B : List Byte) : Bool :=
  match B with
  | b0 :: b1 :: b2 :: b3 :: _ =>
    b0 == 0x5A#8 && b1 == 0x5A#8 && b2 == 0x02#8 && b3 == 0x06#8 && decide (B.length < 1544)
  | _ => true

/-- WAITING (R29): quiescent with at least 4 bytes. -/
def waiting (B : List Byte) : Bool := quiescent B && decide (4 ≤ B.length)

/-- EV_PENDING, which is `ev_valid` (R35, R36). -/
def evPending (s : State) : Bool := !s.inb.evq.isEmpty

/-- RSP_FULL, which is `rsp_valid` (R33, R36). -/
def rspFull (s : State) : Bool := s.rsp != .empty

/-- `req_ready = (RSP = Empty)` (R32). -/
def reqReady (s : State) : Bool := s.rsp == .empty

/-- `rx_ready = Quiescent(B)` (R34). -/
def rxReady (s : State) : Bool := quiescent s.inb.buf

/-- The status word: bits 31:21 reserved, 20 RSP_FULL, 19 EV_PENDING, 18 WAITING, 17 QUIESCENT, 16 OVF, 15:0 FILL_LEN
(R36). FILL_LEN is LEN, which fits because CAP ≤ 65535; a longer buffer, which no run reaches, shows its low 16 bits
(log 18). -/
def statusWord (s : State) : Word :=
  BitVec.ofNat 32 (s.inb.buf.length % 2 ^ 16 + 2 ^ 16 * s.inb.ovf.toNat + 2 ^ 17 * (quiescent s.inb.buf).toNat +
    2 ^ 18 * (waiting s.inb.buf).toNat + 2 ^ 19 * (evPending s).toNat + 2 ^ 20 * (rspFull s).toNat)

end Sys2Proof.Machine
end

