-- ==== Sys2Proof/Machine/Ops.lean ====
section
/-! DEFINITION. The named operations over the buffer, the event queue, the response slot and the host's side: the
pseudocode primitives of R16, COMPACT (R132), the error records that stand in the place of a trap (R200, R209), and
RESET (R230). -/

namespace Sys2Proof.Machine

/-! ### The buffer -/

/-- The buffer's canonical form, "filled length ≤ capacity" (R21, R134). The byte at offset `j` is element `j`; an offset
at LEN or above has no value (R22). -/
abbrev Memory.wf (cap : Nat) (B : List Byte) : Prop := B.length ≤ cap

/-- The buffer as (address, byte) pairs, addresses rising from `base`. -/
def Memory.cells (base : Nat) : List Byte → List Host.Cell
  | [] => []
  | b :: rest => (base, b) :: Memory.cells (base + 1) rest

/-- `MemRead(o, n)`: `n` bytes of B from offset `o`, legal only when `o + n ≤ |B|` (R16). -/
def memRead (B : List Byte) (o n : Nat) : Except Fault (List Byte) :=
  if o + n ≤ B.length then .ok ((B.drop o).take n) else .error .readBeyondFill

/-- A read of one byte. -/
def readByte (B : List Byte) (o : Nat) : Except Fault Byte :=
  match memRead B o 1 with
  | .ok [b] => .ok b
  | .ok _ => .error .readBeyondFill
  | .error f => .error f

/-- A read of a 16-bit field: exactly the two byte reads it combines (R55). -/
def readHalf (B : List Byte) (o : Nat) : Except Fault Half :=
  match memRead B o 2 with
  | .ok [lo, hi] => .ok (le16 lo hi)
  | .ok _ => .error .readBeyondFill
  | .error f => .error f

/-- `MemWrite(LEN, 1, b)` with the counters that go with it: the byte is appended (R16, R130). -/
def memAppend (n : Inbound) (b : Byte) : Inbound :=
  { n with buf := n.buf ++ [b], inCount := n.inCount + 1, stream := n.stream ++ [b] }

/-- `COMPACT(k)`: the first `k` bytes are discarded (R132). A call with `k > LEN` never happens; here it faults. -/
def compact (k : Nat) (n : Inbound) : Except Fault Inbound :=
  if k ≤ n.buf.length then .ok { n with buf := n.buf.drop k, posCount := n.posCount + k }
  else .error .compactBeyondFill

/-- One pass of R132's loop: `BUF[j] <- BUF[j+k]`. -/
def moveByte (k : Nat) (BUF : List Byte) (j : Nat) : List Byte :=
  match BUF[j + k]? with
  | some b => BUF.set j b
  | none => BUF

/-- R132's loop over the whole array BUF, `for j in 0 .. LEN−k−1 (ascending)`. No step calls it: it is what `compact`
is held against. -/
def moveDown (BUF : List Byte) (k len : Nat) : List Byte :=
  (List.range (len - k)).foldl (moveByte k) BUF

/-! ### Events, responses and errors -/

/-- `emit(ev)`: the record goes to the tail of EVQ (R16, R24). -/
def emit (n : Inbound) (e : Event) : Inbound := { n with evq := n.evq ++ [e] }

/-- `respond(r)`: the response goes into RSP (R16, R25). -/
def respond (s : State) (r : Response) : State := s.setRsp r

/-- `respond(Frame(0xA5, opcode, payload, cs8(…)))`, the CMD frame of R72 and R79. -/
def cmdFrame (opcode payload : Byte) : Response := .frame cmdSync opcode payload (cs8 cmdSync opcode payload)

/-- Error code INVALID_CONFIG (R200, R201). -/
def invalidConfig : Byte := 0x01#8
/-- Error code INVALID_PARAM, reserved and never raised (R200, R202). -/
def invalidParam : Byte := 0x02#8
/-- Error code BUFFER_OVERFLOW, recorded in OVF and never in a response (R200, R203). -/
def bufferOverflow : Byte := 0x03#8
/-- Error code ILLEGAL_COMMAND (R200, R204). -/
def illegalCommand : Byte := 0x04#8

/-- `info` of the bit-rate set (R113, R201). -/
def infoBitrate : Byte := 0x00#8
/-- `info` of the update-frequency set (R113, R201). -/
def infoUpdfreq : Byte := 0x01#8

/-- The bit rates that INVALID_CONFIG names by `info` 0 (R113). -/
def bitrateSet : List Word := [9600#32, 115200#32, 460800#32]
/-- The half-hertz frequencies that INVALID_CONFIG names by `info` 1 (R113). -/
def updfreqSet : List Word := [1#32, 2#32, 4#32, 8#32, 16#32]

/-- `raise E(info)` on the command path: the error record of R200 is the erring operation's whole effect (R16, R209). -/
def raiseError (code info : Byte) : Response := .error code info

/-- `raise BUFFER_OVERFLOW()` on the inbound path: the sticky flag (R16, R203). -/
def raiseOverflow (n : Inbound) : Inbound := { n with ovf := true }

/-! ### The host's transfers -/

/-- The host takes the response: `RSP <- Empty` and the host has it (R33). With RSP empty, `rsp_valid` is 0 and there is
nothing to take. -/
def takeResponse (s : State) : State :=
  if s.rsp = .empty then s
  else (s.setRsp .empty).setHost { s.host with rspOut := s.host.rspOut ++ [s.rsp] }

/-- The host takes the event at the head of EVQ (R35). With EVQ empty, `ev_valid` is 0 and there is nothing to take. -/
def takeEvent (s : State) : State :=
  match s.inb.evq with
  | [] => s
  | e :: rest =>
    (s.setInb { s.inb with evq := rest }).setHost { s.host with evOut := s.host.evOut ++ [e] }

/-- The host reads STATUS; the block does not change (R36, R135). -/
def readStatus (s : State) : State :=
  s.setHost { s.host with statusOut := s.host.statusOut ++ [statusWord s] }

/-- RESET (R230): every field of the block at the value of R40. The parameters, what the host presents and what it has
taken stay. -/
def resetBlock (s : State) : State := (s.setRsp .empty).setInb Inbound.reset

/-- The host withdraws the byte it presents, which drops it (R235). -/
def withdrawByte (s : State) : State := s.setHost { s.host with rxIn := s.host.rxIn.tail }

end Sys2Proof.Machine
end

