-- ==== Sys2Proof/Machine/Encoder.lean ====
section
/-! DEFINITION. The command encoder (40_command_encoder.md): one meaning per request row. -/

namespace Sys2Proof.Machine

/-- The encoder step (R101): enabled when RSP = Empty; it writes only RSP. With RSP full the request is not accepted and
stays presented (R32). -/
def encoderStep (r : Response) (s : State) : Host.Outcome State Fault Refusal :=
  if reqReady s then .next (respond s r) else .next s

/-- The response to SET_BITRATE (R103). -/
def encodeBitrate (arg : Word) : Response :=
  match bitrateCode arg with
  | some p => cmdFrame 0x15#8 p
  | none => raiseError invalidConfig infoBitrate

/-- The response to SET_UPDFREQ (R104). -/
def encodeUpdfreq (table : FreqCode) (arg : Word) : Response :=
  match freqCode table arg with
  | some p => cmdFrame 0x25#8 p
  | none => raiseError invalidConfig infoUpdfreq

/-- SET_BITRATE (R103). -/
def execSetBitrate (arg : Word) (s : State) : Host.Outcome State Fault Refusal :=
  encoderStep (encodeBitrate arg) s

/-- SET_UPDFREQ (R104). -/
def execSetUpdfreq (arg : Word) (s : State) : Host.Outcome State Fault Refusal :=
  encoderStep (encodeUpdfreq s.cfg.freqCode arg) s

/-- QUERY (R105). -/
def execQuery (_arg : Word) (s : State) : Host.Outcome State Fault Refusal :=
  encoderStep (cmdFrame 0x35#8 0x01#8) s

/-- AUTOMATIC (R106). -/
def execAutomatic (_arg : Word) (s : State) : Host.Outcome State Fault Refusal :=
  encoderStep (cmdFrame 0x35#8 0x02#8) s

/-- SET_EMIS (R107). -/
def execSetEmis (arg : Word) (s : State) : Host.Outcome State Fault Refusal :=
  encoderStep (cmdFrame 0x45#8 (emisPayload arg)) s

/-- GET_EMIS (R108). -/
def execGetEmis (_arg : Word) (s : State) : Host.Outcome State Fault Refusal :=
  encoderStep (cmdFrame 0x55#8 0x01#8) s

/-- SAVE (R109). -/
def execSave (_arg : Word) (s : State) : Host.Outcome State Fault Refusal :=
  encoderStep (cmdFrame 0x65#8 0x01#8) s

/-- ILLEGAL_OP7 (R110). -/
def execIllegalOp7 (_arg : Word) (s : State) : Host.Outcome State Fault Refusal :=
  encoderStep (raiseError illegalCommand 0x07#8) s

end Sys2Proof.Machine
end

