-- ==== Sys2Proof/Machine/Scanner.lean ====
section
/-! DEFINITION. The scanner (42_frame_scanner.md): the decision function, the SCAN step, the decision trace, and the run
to quiescence. -/

namespace Sys2Proof.Machine

/-- `DECIDE(B)` (R151): the header test, then the type test, then the length test, then the checksum (R164). Each read is
checked against the valid prefix. -/
def decision (B : List Byte) : Except Fault Decision :=
  if B.length < minDecide then .ok .short
  else do
    let header ← memRead B 0 2
    if header ≠ [hdrByte, hdrByte] then pure .resync
    else do
      let type ← readHalf B 2
      if type = tempType then
        if B.length < frameSize then pure .tempWait
        else do
          let F ← memRead B 0 frameSize
          let stored ← readHalf B checksumOffset
          if tempSum F = stored then pure .tempAccept else pure .tempReject
      else do
        let value ← readByte B 2
        let stored ← readByte B 3
        if stored = ecs value then pure .emisAccept else pure .emisReject

/-- `adv(d)` (R28, R152). -/
def Decision.adv : Decision → Nat
  | .short => 0
  | .resync => 1
  | .tempWait => 0
  | .tempAccept => 1544
  | .tempReject => 1
  | .emisAccept => 4
  | .emisReject => 1

/-- The decoder of an accepted temperature frame (R182, R183). -/
def decodeTemp (B : List Byte) : Except Fault Event := do
  let F ← memRead B 0 frameSize
  let ambient ← readHalf B ambientOffset
  pure (.temp (samplesOf F) (s16 ambient))

/-- The decoder of an accepted emissivity frame (R187). -/
def decodeEmis (B : List Byte) : Except Fault Event := do
  let value ← readByte B 2
  pure (.emis value)

/-- `decode(d, B)` (R152): the record an accepting decision emits; the others emit none. -/
def eventOf (d : Decision) (B : List Byte) : Except Fault (Option Event) :=
  match d with
  | .short => pure none
  | .resync => pure none
  | .tempWait => pure none
  | .tempAccept => do
    let e ← decodeTemp B
    pure (some e)
  | .tempReject => pure none
  | .emisAccept => do
    let e ← decodeEmis B
    pure (some e)
  | .emisReject => pure none

/-- The trace records of a SCAN step that took decision `d` and left `B` (R166): `(d, adv(d))`, then `(SHORT, 0)` or
`(TEMP_WAIT, 0)` if the step led into quiescence (log 10). -/
def traceRecords (d : Decision) (B : List Byte) : List TraceRecord :=
  if quiescent B then
    [⟨d, d.adv⟩, ⟨if B.length < minDecide then .short else .tempWait, 0⟩]
  else [⟨d, d.adv⟩]

/-- The records go out on the trace port, which exists only when DBG_TRACE is true (R38, R166). -/
def traceStep (cfg : Config) (d : Decision) (n : Inbound) : Inbound :=
  if cfg.dbgTrace then { n with trace := n.trace ++ traceRecords d n.buf } else n

/-- The effect of an enabled SCAN step (R152): emit, then COMPACT, then the trace. -/
def applyDecision (cfg : Config) (d : Decision) (ev : Option Event) (n : Inbound) : Except Fault Inbound := do
  let n₁ := match ev with
    | some e => emit n e
    | none => n
  let n₂ ← compact d.adv n₁
  pure (traceStep cfg d n₂)

/-- A SCAN step (R152). SHORT and TEMP_WAIT are no step; an accepting decision with EVQ full is held: nothing changes. -/
def scanInbound (cfg : Config) (n : Inbound) : Except Fault Inbound := do
  let d ← decision n.buf
  let ev ← eventOf d n.buf
  if d.adv = 0 then pure n
  else if ev.isSome ∧ ¬ n.evq.length < cfg.evDepth then pure n
  else applyDecision cfg d ev n

/-- A SCAN step on the whole state; it changes the inbound path alone. -/
def scan (s : State) : Host.Outcome State Fault Refusal :=
  match scanInbound s.cfg s.inb with
  | .ok n => .next (s.setInb n)
  | .error f => .fault f

/-- A SCAN step is enabled (R152). -/
def scanEnabled (s : State) : Bool :=
  match decision s.inb.buf with
  | .ok .short => false
  | .ok .tempWait => false
  | .ok .tempAccept => decide (s.inb.evq.length < s.cfg.evDepth)
  | .ok .emisAccept => decide (s.inb.evq.length < s.cfg.evDepth)
  | .ok .resync => true
  | .ok .tempReject => true
  | .ok .emisReject => true
  | .error _ => false

/-- The SCAN step on the frame `F` that stands at buffer offset 0. Where `F` does not stand there, no such decision is
enabled and nothing changes (log 3). -/
def scanFrame (F : List Byte) (s : State) : Host.Outcome State Fault Refusal :=
  if F.isPrefixOf s.inb.buf then scan s else .next s

/-! ### Runs to quiescence -/

/-- One decision on a buffer alone, with room in EVQ: the record and the bytes left, or nothing where no decision
advances. -/
def scanBytes (B : List Byte) : Option (Option Event × List Byte) :=
  match decision B with
  | .error _ => none
  | .ok d =>
    if d.adv = 0 then none
    else
      match eventOf d B with
      | .error _ => none
      | .ok ev => some (ev, B.drop d.adv)

/-- At most `fuel` decisions in a row: the records in order and the bytes left (R160). -/
def runBytes : Nat → List Byte → List Event × List Byte
  | 0, B => ([], B)
  | fuel + 1, B =>
    match scanBytes B with
    | none => ([], B)
    | some (ev, rest) => (ev.toList ++ (runBytes fuel rest).1, (runBytes fuel rest).2)

/-- The run to quiescence of a buffer (R160): at most LEN decisions. -/
def scanAll (B : List Byte) : List Event × List Byte := runBytes B.length B

/-- PUSH of each byte of `C` in turn, each followed by a run to quiescence: APPEND (R133) with a host that takes the
events. -/
def feed : List Byte → List Byte → List Event × List Byte
  | B, [] => ([], B)
  | B, c :: rest =>
    let r := scanAll (B ++ [c])
    let q := feed r.2 rest
    (r.1 ++ q.1, q.2)

/-- The source's cursor form (R167): the cursor `i` advances and the buffer is compacted once, at the final stop. -/
def runCursor : Nat → List Byte → Nat → List Event × List Byte
  | 0, B, i => ([], B.drop i)
  | fuel + 1, B, i =>
    match decision (B.drop i) with
    | .error _ => ([], B.drop i)
    | .ok d =>
      if d.adv = 0 then ([], B.drop i)
      else
        match eventOf d (B.drop i) with
        | .error _ => ([], B.drop i)
        | .ok ev => (ev.toList ++ (runCursor fuel B (i + d.adv)).1, (runCursor fuel B (i + d.adv)).2)

end Sys2Proof.Machine
end

