-- ==== Sys2Proof/Machine/Frames.lean ====
section
/-! DEFINITION. The inbound frames: the meanings of the TEMP and EMIS rows, the scanner's decision on a frame that stands
at buffer offset 0. -/

namespace Sys2Proof.Machine

/-- TEMP_FRAME: TEMP_ACCEPT (R156) or TEMP_REJECT (R157), by the frame's checksum. -/
def execTempFrame (samples : List Half) (ambient checksum : Half) (s : State) : Host.Outcome State Fault Refusal :=
  scanFrame (tempBytes samples ambient checksum) s

/-- EMIS_FRAME: EMIS_ACCEPT (R158) or EMIS_REJECT (R159), by the frame's checksum. -/
def execEmisFrame (value checksum : Byte) (s : State) : Host.Outcome State Fault Refusal :=
  scanFrame (emisBytes value checksum) s

end Sys2Proof.Machine
end

