-- ==== Sys2Proof/Machine/Ports.lean ====
section
/-! DEFINITION. The receive port, the reset input and the status port: the meanings of RX_PUSH, RESET and STATUS_READ. -/

namespace Sys2Proof.Machine

/-- PUSH(b) on the inbound path (R130): appended while `LEN < CAP`, else BUFFER_OVERFLOW and the byte is dropped. -/
def pushByte (cap : Nat) (n : Inbound) (b : Byte) : Inbound :=
  if n.buf.length < cap then memAppend n b else raiseOverflow n

/-- RX_PUSH (R130): enabled when `Quiescent(B)`. Otherwise the byte is not taken and stays presented (R34). -/
def execRxPush (data : Byte) (s : State) : Host.Outcome State Fault Refusal :=
  if rxReady s then .next (s.setInb (pushByte s.cfg.cap s.inb data)) else .next s

/-- RESET (R230). -/
def execReset (s : State) : Host.Outcome State Fault Refusal := .next (resetBlock s)

/-- STATUS_READ (R135). -/
def execStatusRead (s : State) : Host.Outcome State Fault Refusal := .next (readStatus s)

end Sys2Proof.Machine
end

