-- ==== Sys2Proof/Machine/Response.lean ====
section
/-! DEFINITION. The command frames on the response port: one meaning per CMD row. The block produces these frames
(R91); the transfer that carries one is the host's taking of the response that holds it (R33; log 2). -/

namespace Sys2Proof.Machine

/-- The transfer of the frame `b0 b1 b2 b3`: RSP holds it, the host takes it. Where RSP does not hold it, no such
transfer is on the port and nothing changes. -/
def takeFrame (b0 b1 b2 b3 : Byte) (s : State) : Host.Outcome State Fault Refusal :=
  if s.rsp = .frame b0 b1 b2 b3 then .next (takeResponse s) else .next s

/-- CMD_SET_BITRATE (R33, R74). -/
def execCmdSetBitrate (payload checksum : Byte) (s : State) : Host.Outcome State Fault Refusal :=
  takeFrame cmdSync 0x15#8 payload checksum s

/-- CMD_SET_UPDFREQ (R33, R75). -/
def execCmdSetUpdfreq (payload checksum : Byte) (s : State) : Host.Outcome State Fault Refusal :=
  takeFrame cmdSync 0x25#8 payload checksum s

/-- CMD_QUERY (R33, R76). -/
def execCmdQuery (s : State) : Host.Outcome State Fault Refusal :=
  takeFrame cmdSync 0x35#8 0x01#8 0xDB#8 s

/-- CMD_AUTOMATIC (R33, R76). -/
def execCmdAutomatic (s : State) : Host.Outcome State Fault Refusal :=
  takeFrame cmdSync 0x35#8 0x02#8 0xDC#8 s

/-- CMD_SET_EMIS (R33, R77). -/
def execCmdSetEmis (payload checksum : Byte) (s : State) : Host.Outcome State Fault Refusal :=
  takeFrame cmdSync 0x45#8 payload checksum s

/-- CMD_GET_EMIS (R33, R78). -/
def execCmdGetEmis (s : State) : Host.Outcome State Fault Refusal :=
  takeFrame cmdSync 0x55#8 0x01#8 0xFB#8 s

/-- CMD_SAVE (R33, R78). -/
def execCmdSave (s : State) : Host.Outcome State Fault Refusal :=
  takeFrame cmdSync 0x65#8 0x01#8 0x0B#8 s

end Sys2Proof.Machine
end

