-- ==== Sys2Proof/Machine/Dispatch.lean ====
section
/-! DEFINITION. The meaning of every operation: one arm per constructor. -/

namespace Sys2Proof.Machine

def exec (i : Instr) (s : State) : Host.Outcome State Fault Refusal :=
  match i with
  | .setBitrate arg => Sys2Proof.Machine.execSetBitrate arg s
  | .setUpdfreq arg => Sys2Proof.Machine.execSetUpdfreq arg s
  | .query arg => Sys2Proof.Machine.execQuery arg s
  | .automatic arg => Sys2Proof.Machine.execAutomatic arg s
  | .setEmis arg => Sys2Proof.Machine.execSetEmis arg s
  | .getEmis arg => Sys2Proof.Machine.execGetEmis arg s
  | .save arg => Sys2Proof.Machine.execSave arg s
  | .illegalOp7 arg => Sys2Proof.Machine.execIllegalOp7 arg s
  | .cmdSetBitrate payload checksum => Sys2Proof.Machine.execCmdSetBitrate payload checksum s
  | .cmdSetUpdfreq payload checksum => Sys2Proof.Machine.execCmdSetUpdfreq payload checksum s
  | .cmdQuery => Sys2Proof.Machine.execCmdQuery s
  | .cmdAutomatic => Sys2Proof.Machine.execCmdAutomatic s
  | .cmdSetEmis payload checksum => Sys2Proof.Machine.execCmdSetEmis payload checksum s
  | .cmdGetEmis => Sys2Proof.Machine.execCmdGetEmis s
  | .cmdSave => Sys2Proof.Machine.execCmdSave s
  | .tempFrame samples ambient checksum => Sys2Proof.Machine.execTempFrame samples ambient checksum s
  | .emisFrame value checksum => Sys2Proof.Machine.execEmisFrame value checksum s
  | .rxPush data => Sys2Proof.Machine.execRxPush data s
  | .reset => Sys2Proof.Machine.execReset s
  | .statusRead => Sys2Proof.Machine.execStatusRead s

end Sys2Proof.Machine
end

