-- ==== Sys2Proof/Machine/Fetch.lean ====
section
/-! DEFINITION. Which move is next, and which operation it runs: the order of the three agents (R20), the handshakes of
the ports (R32 to R37), and where each format of operation is fetched from. -/

namespace Sys2Proof.Machine

/-- What a move runs: an operation on a state, or a step that no row of the opcode table names. -/
inductive Fetched where
  | instr (i : Instr) (s : State)
  | other (o : Host.Outcome State Fault Refusal)

/-- The next move. The head of `sched` where there is one: any agent may be scheduled next (R20). With no move
scheduled, a fixed fair order (R242; DESIGN CHOICE, log 5): an enabled SCAN step, an acceptable request, an acceptable
byte, and then, if the host has promised it, taking an event or a response. -/
def nextTurn (s : State) : Option Turn :=
  match s.host.sched with
  | t :: _ => some t
  | [] =>
    if scanEnabled s then some .scan
    else if !s.host.reqIn.isEmpty && reqReady s then some .request
    else if !s.host.rxIn.isEmpty && rxReady s then some .receive
    else if s.host.promise && evPending s then some .takeEvent
    else if s.host.promise && rspFull s then some .takeResponse
    else none

/-- The move is made: it leaves the schedule. -/
def popTurn (s : State) : State := s.setHost { s.host with sched := s.host.sched.tail }

/-- The handshake of the request port: a request is accepted, and leaves the port, on a step where `req_valid` and
`req_ready` hold; otherwise it stays presented (R32). -/
def fetchRequest (s : State) : Fetched :=
  match s.host.reqIn with
  | [] => .other (.next s)
  | w :: ws => .instr (decodeReq w) (if reqReady s then s.setHost { s.host with reqIn := ws } else s)

/-- The transfer on the response port (R33). A frame is one of the CMD rows; an error record, and a frame that is no
CMD row (no run holds one, R91; log 19), are taken without an operation of the table. -/
def fetchResponse (s : State) : Fetched :=
  match s.rsp with
  | .frame b0 b1 b2 b3 =>
    match decodeCmd b0 b1 b2 b3 with
    | .ok i => .instr i s
    | .error _ => .other (.next (takeResponse s))
  | .empty => .other (.next (takeResponse s))
  | .error _ _ => .other (.next (takeResponse s))

/-- The handshake of the receive port: a byte is accepted, and leaves the port, on a step where `rx_valid` and `rx_ready`
hold; otherwise it stays presented (R34). -/
def fetchByte (s : State) : Fetched :=
  match s.host.rxIn with
  | [] => .other (.next s)
  | b :: bs => .instr (.rxPush b) (if rxReady s then s.setHost { s.host with rxIn := bs } else s)

/-- The scanner's fetch: the frame that stands at buffer offset 0; where none does, the SCAN step is RESYNC, or none. -/
def fetchScan (s : State) : Fetched :=
  match decodeStream s.inb.buf with
  | .ok (i, _) => .instr i s
  | .error _ => .other (scan s)

/-- What the move `t` runs. -/
def fetch (t : Turn) (s : State) : Fetched :=
  match t with
  | .request => fetchRequest s
  | .takeResponse => fetchResponse s
  | .receive => fetchByte s
  | .withdrawByte => .other (.next (withdrawByte s))
  | .scan => fetchScan s
  | .takeEvent => .other (.next (takeEvent s))
  | .readStatus => .instr .statusRead s
  | .reset => .instr .reset s

/-- The host's side with the move `t` scheduled next. -/
def schedule (t : Turn) (s : State) : State := s.setHost { s.host with sched := t :: s.host.sched }

/-- The transfer put where `step` fetches it, and its move scheduled next. An inbound frame is put in the buffer, with
the ghost stream and counters that go with it (R31). -/
def place (t : Transfer) (s : State) : State :=
  match t with
  | .req35 w => schedule .request (s.setHost { s.host with reqIn := w :: s.host.reqIn })
  | .cmd b0 b1 b2 b3 => schedule .takeResponse (s.setRsp (.frame b0 b1 b2 b3))
  | .inbound bytes =>
    schedule .scan (s.setInb { s.inb with
      buf := bytes
      stream := s.inb.stream.take s.inb.posCount ++ bytes
      inCount := s.inb.posCount + bytes.length })
  | .rx8 b => schedule .receive (s.setHost { s.host with rxIn := b :: s.host.rxIn })
  | .rst => schedule .reset s
  | .status => schedule .readStatus s

end Sys2Proof.Machine
end

