-- ==== Sys2Proof/Machine/Step.lean ====
section
/-! DEFINITION. One step of the machine, and an operation put where the step fetches it. -/

namespace Sys2Proof.Machine

/-- One atomic step (R17): the next move is made. With no move to make the block waits and keeps all its state (R217). -/
def step (s : State) : Host.Outcome State Fault Refusal :=
  match nextTurn s with
  | none => .next s
  | some t =>
    match fetch t (popTurn s) with
    | .instr i s' => exec i s'
    | .other o => o

/-- `s` with the operation of a row's bits put where `step` fetches its next operation. Bits that stand for no transfer
leave `s` as it is. -/
def State.withFetchWord (s : State) (nbits w : Nat) : State :=
  match tableTransfer nbits w with
  | some t => place t s
  | none => s

end Sys2Proof.Machine
end

