-- ==== Sys2Proof/Machine/Pseudo.lean ====
section
/-! DEFINITION. What the host does with the block's operations: APPEND (R133), the session's pseudo-operations (R95), the
reference conversions (R111, R184, R185), and the byte stream a host writes to the transport (R241). None of it is block
state. -/

namespace Sys2Proof.Machine

/-- `clamp` on rationals (R15). -/
def clampRat (x lo hi : ℚ) : ℚ := if x < lo then lo else if hi < x then hi else x

/-- `EmisHundredths(v) = floor(100 × clamp(v, 0, 1) + 1/2)` (R111). -/
def emisHundredths (v : ℚ) : Int := (100 * clampRat v 0 1 + 1 / 2).floor

/-- The meaning of a raw fixed-point value: exactly `r / 100` (R184, R187). -/
def meaning (r : Int) : ℚ := (r : ℚ) / 100

/-- The grid position of sample `k`: row and column (R185). -/
def gridPos (k : Nat) : Nat × Nat := (k / gridW, k % gridW)

/-- APPEND(C) as operations (R133): one PUSH per byte, in order. -/
def append (chunk : List Byte) : List Instr := chunk.map .rxPush

/-- The session methods of R95, with their arguments. -/
inductive SessionCall where
  | query
  | automatic
  | save
  /-- `emissivity()`: ask for the current value. -/
  | getEmissivity
  /-- `emissivity(v)`. -/
  | setEmissivity (v : ℚ)
  /-- `changeUpdateFrequency(f, alsoWriteToDevice)`, `f` in hertz. -/
  | changeUpdateFrequency (f : ℚ) (alsoWriteToDevice : Bool)
  /-- The transport delivers a chunk. -/
  | chunk (bytes : List Byte)

/-- The expansion of a session method into operations of the block (R95). An ignored argument is 0 here. -/
def SessionCall.expand : SessionCall → List Instr
  | .query => [.query 0#32]
  | .automatic => [.automatic 0#32]
  | .save => [.save 0#32]
  | .getEmissivity => [.getEmis 0#32]
  | .setEmissivity v => [.setEmis (BitVec.ofInt 32 (emisHundredths v))]
  | .changeUpdateFrequency f true => [.setUpdfreq (BitVec.ofInt 32 (2 * f).floor)]
  | .changeUpdateFrequency _ false => []
  | .chunk bytes => append bytes

/-- The bytes a host writes to the transport for the responses it took: each Frame's four bytes, contiguous and in
response order (R33, R241). -/
def transportBytes (rs : List Response) : List Byte :=
  rs.flatMap fun
    | .frame b0 b1 b2 b3 => [b0, b1, b2, b3]
    | .empty => []
    | .error _ _ => []

end Sys2Proof.Machine
end

