-- ==== Sys2Proof/Safety.lean ====
section
/-! DEFINITION. What a safe run is: the invariants of the block (R134, R161, R131), the responses and events it may hold
(R91, R188, R200), the clean and the final states (R42, R43), and what a run yields (R162). -/

namespace Sys2Proof.Machine

/-- An event record has exactly 768 samples, and its values are i16 (R188). -/
def Event.Ok : Event → Prop
  | .temp samples ambient =>
    samples.length = nSamples ∧ (∀ x ∈ samples, -32768 ≤ x ∧ x ≤ 32767) ∧ -32768 ≤ ambient ∧ ambient ≤ 32767
  | .emis _ => True

/-- The payloads the encoder puts after an opcode byte (R74 to R78, R91). -/
def LegalPayload (table : FreqCode) (opcode payload : Byte) : Prop :=
  (opcode = 0x15#8 ∧ (payload = 0x01#8 ∨ payload = 0x02#8 ∨ payload = 0x03#8)) ∨
  (opcode = 0x25#8 ∧ payload ∈ [table.half, table.one, table.two, table.four, table.eight]) ∨
  (opcode = 0x35#8 ∧ (payload = 0x01#8 ∨ payload = 0x02#8)) ∨
  (opcode = 0x45#8 ∧ payload.toNat ≤ 100) ∨
  (opcode = 0x55#8 ∧ payload = 0x01#8) ∨
  (opcode = 0x65#8 ∧ payload = 0x01#8)

/-- A response the block may hold: a CMD frame with its checksum (R72, R79, R91), or one of the three error records of
R200. -/
def Response.Legal (table : FreqCode) : Response → Prop
  | .empty => True
  | .frame b0 b1 b2 b3 => b0 = 0xA5#8 ∧ LegalPayload table b1 b2 ∧ b3.toNat = (b0.toNat + b1.toNat + b2.toNat) % 256
  | .error code info =>
    (code = 0x01#8 ∧ info = 0x00#8) ∨ (code = 0x01#8 ∧ info = 0x01#8) ∨ (code = 0x04#8 ∧ info = 0x07#8)

/-- The buffer invariants of R134 with the ghost stream of R31, and the bounds of R131 and R24. -/
structure Inbound.Inv (cfg : Config) (n : Inbound) : Prop where
  /-- The parameters are in their ranges (R7, R8). -/
  params : cfg.Ok
  /-- `LEN ≤ 1544`, so LEN never reaches CAP at a PUSH (R131). -/
  fill : n.buf.length ≤ frameSize
  /-- `POS + LEN = IN` (R31). -/
  count : n.posCount + n.buf.length = n.inCount
  /-- S holds the accepted bytes, IN of them (R31). -/
  accepted : n.stream.length = n.inCount
  /-- `B = S[POS..IN)` (R31). -/
  window : n.buf = n.stream.drop n.posCount
  /-- At most EV_DEPTH records wait (R24). -/
  depth : n.evq.length ≤ cfg.evDepth
  /-- Every record is one of R188. -/
  records : ∀ e ∈ n.evq, e.Ok
  /-- The buffer never overflows (R131). -/
  noOverflow : n.ovf = false
  /-- Without DBG_TRACE there is no trace port (R38). -/
  noTrace : cfg.dbgTrace = false → n.trace = []

/-- The inbound path of the state meets its invariant. -/
abbrev State.Inv (s : State) : Prop := s.inb.Inv s.cfg

/-- `Clean(st)` (R42): it holds exactly after RESET. -/
def State.Clean (s : State) : Prop :=
  s.inb.buf = [] ∧ s.inb.ovf = false ∧ s.inb.evq = [] ∧ s.rsp = .empty ∧ s.inb.inCount = 0 ∧ s.inb.posCount = 0

/-- A final state (R43). -/
def State.Final (s : State) : Prop :=
  s.host.rxIn = [] ∧ s.host.reqIn = [] ∧ quiescent s.inb.buf = true ∧ s.inb.evq = [] ∧ s.rsp = .empty

/-- The eight request rows (R70). -/
def isRequest : Instr → Bool
  | .setBitrate _ => true
  | .setUpdfreq _ => true
  | .query _ => true
  | .automatic _ => true
  | .setEmis _ => true
  | .getEmis _ => true
  | .save _ => true
  | .illegalOp7 _ => true
  | .cmdSetBitrate _ _ => false
  | .cmdSetUpdfreq _ _ => false
  | .cmdQuery => false
  | .cmdAutomatic => false
  | .cmdSetEmis _ _ => false
  | .cmdGetEmis => false
  | .cmdSave => false
  | .tempFrame _ _ _ => false
  | .emisFrame _ _ => false
  | .rxPush _ => false
  | .reset => false
  | .statusRead => false

/-- The operations of the inbound path that a step takes on received bytes. -/
def isInbound : Instr → Bool
  | .setBitrate _ => false
  | .setUpdfreq _ => false
  | .query _ => false
  | .automatic _ => false
  | .setEmis _ => false
  | .getEmis _ => false
  | .save _ => false
  | .illegalOp7 _ => false
  | .cmdSetBitrate _ _ => false
  | .cmdSetUpdfreq _ _ => false
  | .cmdQuery => false
  | .cmdAutomatic => false
  | .cmdSetEmis _ _ => false
  | .cmdGetEmis => false
  | .cmdSave => false
  | .tempFrame _ _ _ => true
  | .emisFrame _ _ => true
  | .rxPush _ => true
  | .reset => false
  | .statusRead => false

/-- The state after the host has taken the response: RSP is empty and the host has what it held (R33). -/
def State.handedOver (s : State) : State :=
  { s with rsp := .empty, host := { s.host with rspOut := s.host.rspOut ++ [s.rsp] } }

/-- R180's sum as it is written there: over the words at frame offsets 0, 2, …, 1540, read one by one. -/
def wordSum (F : List Byte) : Nat :=
  ((List.range 771).map fun w => ((wordAt F (2 * w)).map BitVec.toNat).getD 0).sum

/-- The unsigned sum of 16-bit fields. -/
def sumHalves (ws : List Half) : Nat := (ws.map BitVec.toNat).sum

/-- The bytes at offsets 0..3 of a temperature candidate (R155, R156). -/
def TempHead (B : List Byte) : Prop :=
  B[0]? = some 0x5A#8 ∧ B[1]? = some 0x5A#8 ∧ B[2]? = some 0x02#8 ∧ B[3]? = some 0x06#8

/-- What the inbound path has given and will give of the bytes it has and the bytes presented: the records in order, and
the bytes left at the end (R162). -/
def State.yield (s : State) : List Event × List Byte :=
  let r := scanAll (s.inb.buf ++ s.host.rxIn)
  (s.host.evOut ++ s.inb.evq ++ r.1, r.2)

end Sys2Proof.Machine
end

