-- ==== Sys2Proof/Certificates/Slice0/Obligations.lean ====
section
/-! DEFINITION. The statements for the provers, from the numbered rules of spec/. -/

open Sys2Proof Sys2Proof.Machine

/-! ### The command encoder -/

/-- SET_BITRATE (R103): its encoding, the frame of each of the three rates, and INVALID_CONFIG with info 0 for every
other argument; nothing but RSP changes. -/
def Obligations.SetBitrateResponse : Prop :=
  ∀ (arg : Word) (s : State), s.rsp = .empty →
    encode (.setBitrate arg) = .req35 (0#3 ++ arg) ∧
    (arg = 9600#32 → exec (.setBitrate arg) s = .next { s with rsp := .frame 0xA5#8 0x15#8 0x01#8 0xBB#8 }) ∧
    (arg = 115200#32 → exec (.setBitrate arg) s = .next { s with rsp := .frame 0xA5#8 0x15#8 0x02#8 0xBC#8 }) ∧
    (arg = 460800#32 → exec (.setBitrate arg) s = .next { s with rsp := .frame 0xA5#8 0x15#8 0x03#8 0xBD#8 }) ∧
    (arg ≠ 9600#32 → arg ≠ 115200#32 → arg ≠ 460800#32 →
      exec (.setBitrate arg) s = .next { s with rsp := .error 0x01#8 0x00#8 })

/-- SET_UPDFREQ (R104) for every FREQ_CODE: its encoding, the frame with the table's payload and its checksum, and
INVALID_CONFIG with info 1 for every other argument; the default table's 8 Hz frame is A5 25 04 CE. -/
def Obligations.SetUpdfreqResponse : Prop :=
  ∀ (arg : Word) (s : State), s.rsp = .empty →
    encode (.setUpdfreq arg) = .req35 (1#3 ++ arg) ∧
    (∀ p : Byte,
      (arg = 1#32 ∧ p = s.cfg.freqCode.half) ∨ (arg = 2#32 ∧ p = s.cfg.freqCode.one) ∨
        (arg = 4#32 ∧ p = s.cfg.freqCode.two) ∨ (arg = 8#32 ∧ p = s.cfg.freqCode.four) ∨
        (arg = 16#32 ∧ p = s.cfg.freqCode.eight) →
      ∃ c : Byte, c.toNat = (0xA5 + 0x25 + p.toNat) % 256 ∧
        exec (.setUpdfreq arg) s = .next { s with rsp := .frame 0xA5#8 0x25#8 p c }) ∧
    (arg ∉ [1#32, 2#32, 4#32, 8#32, 16#32] →
      exec (.setUpdfreq arg) s = .next { s with rsp := .error 0x01#8 0x01#8 }) ∧
    (s.cfg.freqCode = ⟨0x00#8, 0x01#8, 0x02#8, 0x03#8, 0x04#8⟩ → arg = 16#32 →
      exec (.setUpdfreq arg) s = .next { s with rsp := .frame 0xA5#8 0x25#8 0x04#8 0xCE#8 })

/-- QUERY (R105), AUTOMATIC (R106), GET_EMIS (payload of R78) and SAVE (R109): their encodings, and the one frame of each for
every ignored argument; nothing but RSP changes. -/
def Obligations.FixedCommandResponses : Prop :=
  ∀ (arg : Word) (s : State), s.rsp = .empty →
    encode (.query arg) = .req35 (2#3 ++ arg) ∧ encode (.automatic arg) = .req35 (3#3 ++ arg) ∧
    encode (.getEmis arg) = .req35 (5#3 ++ arg) ∧ encode (.save arg) = .req35 (6#3 ++ arg) ∧
    exec (.query arg) s = .next { s with rsp := .frame 0xA5#8 0x35#8 0x01#8 0xDB#8 } ∧
    exec (.automatic arg) s = .next { s with rsp := .frame 0xA5#8 0x35#8 0x02#8 0xDC#8 } ∧
    exec (.getEmis arg) s = .next { s with rsp := .frame 0xA5#8 0x55#8 0x01#8 0xFB#8 } ∧
    exec (.save arg) s = .next { s with rsp := .frame 0xA5#8 0x65#8 0x01#8 0x0B#8 }

/-- SET_EMIS (R107): its encoding, and for every argument the frame whose payload is the argument read as a
two's-complement i32 and clamped to 0..100, with checksum (0xEA + p) mod 256; nothing but RSP changes. -/
def Obligations.SetEmisResponse : Prop :=
  ∀ (arg : Word) (s : State), s.rsp = .empty →
    encode (.setEmis arg) = .req35 (4#3 ++ arg) ∧
    ∃ p c : Byte, (p.toNat : Int) = max 0 (min 100 arg.toInt) ∧ c.toNat = (0xEA + p.toNat) % 256 ∧
      exec (.setEmis arg) s = .next { s with rsp := .frame 0xA5#8 0x45#8 p c }

/-- Selector 7 (R89, R204): its encoding, and Error(ILLEGAL_COMMAND, 7) for every argument; nothing but RSP changes. -/
def Obligations.IllegalSelectorResponse : Prop :=
  ∀ (arg : Word) (s : State), s.rsp = .empty →
    encode (.illegalOp7 arg) = .req35 (7#3 ++ arg) ∧
    exec (.illegalOp7 arg) s = .next { s with rsp := .error 0x04#8 0x07#8 }

/-- A request is accepted only when RSP is empty (R32, R101): with RSP full, none of the eight request rows has any
effect. -/
def Obligations.RequestWaitsWhileResponseHeld : Prop :=
  ∀ (i : Instr) (s : State), isRequest i = true → s.rsp ≠ .empty → exec i s = .next s

/-- The encoder is a pure total function (R100): in any two states with RSP empty and the same FREQ_CODE, each of the
eight request rows gets the same one response, and writes nothing else. -/
def Obligations.EncoderIsPure : Prop :=
  ∀ (i : Instr) (s₁ s₂ : State), isRequest i = true → s₁.rsp = .empty → s₂.rsp = .empty →
    s₁.cfg.freqCode = s₂.cfg.freqCode →
    ∃ r : Response, r ≠ .empty ∧ exec i s₁ = .next { s₁ with rsp := r } ∧ exec i s₂ = .next { s₂ with rsp := r }

/-- Encoder laws 1 and 3 (R112): a Frame response has sync 0xA5 and its checksum, and exactly ops 0 and 1 with an
illegal argument and op 7 get an Error response. -/
def Obligations.FrameOrErrorByRequest : Prop :=
  ∀ (i : Instr) (s t : State), isRequest i = true → s.rsp = .empty → exec i s = .next t →
    (∀ b0 b1 b2 b3, t.rsp = .frame b0 b1 b2 b3 →
      b0 = 0xA5#8 ∧ b3.toNat = (b0.toNat + b1.toNat + b2.toNat) % 256) ∧
    ((∃ code info, t.rsp = .error code info) ↔
      (∃ a, i = .setBitrate a ∧ a ∉ [9600#32, 115200#32, 460800#32]) ∨
      (∃ a, i = .setUpdfreq a ∧ a ∉ [1#32, 2#32, 4#32, 8#32, 16#32]) ∨
      (∃ a, i = .illegalOp7 a))

/-- Encoder law 4 (R112): where FREQ_CODE gives five distinct payloads, as its default does, two requests that get the
same frame are the same command; only SET_EMIS arguments that clamp alike share a frame. -/
def Obligations.EncoderInjective : Prop :=
  ∀ (i j : Instr) (s t u : State) (b0 b1 b2 b3 : Byte), isRequest i = true → isRequest j = true →
    s.rsp = .empty →
    [s.cfg.freqCode.half, s.cfg.freqCode.one, s.cfg.freqCode.two, s.cfg.freqCode.four, s.cfg.freqCode.eight].Nodup →
    exec i s = .next t → exec j s = .next u → t.rsp = .frame b0 b1 b2 b3 → u.rsp = .frame b0 b1 b2 b3 →
    (∃ a, i = .setBitrate a ∧ j = .setBitrate a) ∨ (∃ a, i = .setUpdfreq a ∧ j = .setUpdfreq a) ∨
    (∃ a b, i = .query a ∧ j = .query b) ∨ (∃ a b, i = .automatic a ∧ j = .automatic b) ∨
    (∃ a b, i = .getEmis a ∧ j = .getEmis b) ∨ (∃ a b, i = .save a ∧ j = .save b) ∨
    (∃ a b, i = .setEmis a ∧ j = .setEmis b ∧ max 0 (min 100 a.toInt) = max 0 (min 100 b.toInt))

/-- The clamp law (R112 law 2), for arguments and for fractions. -/
def Obligations.EmissivityClampLaw : Prop :=
  (∀ (a : Word) (s : State), a.toInt < 0 → exec (.setEmis a) s = exec (.setEmis 0#32) s) ∧
  (∀ (a : Word) (s : State), 100 < a.toInt → exec (.setEmis a) s = exec (.setEmis 100#32) s) ∧
  (∀ v : ℚ, v < 0 → emisHundredths v = 0) ∧ (∀ v : ℚ, 1 < v → emisHundredths v = 100)

/-- The reference conversion (R111): half up on the clamped value, which equals the clamp of the rounded value, always
in 0..100. -/
def Obligations.EmisHundredthsRoundsHalfUp : Prop :=
  ∀ v : ℚ, emisHundredths v = ⌊100 * max 0 (min 1 v) + 1 / 2⌋ ∧
    emisHundredths v = max 0 (min 100 ⌊100 * v + 1 / 2⌋) ∧ 0 ≤ emisHundredths v ∧ emisHundredths v ≤ 100

/-! ### Command frames on the response port -/

/-- The transfer of each CMD row (R33): where RSP holds the row's frame, the operation completes, RSP is empty after it,
the host has the four bytes in wire order, and nothing else changes. What a CMD row does is DEDUCED (log 2). -/
def Obligations.CommandFrameTransfers : Prop :=
  ∀ (p c : Byte) (s : State),
    (s.rsp = .frame 0xA5#8 0x15#8 p c → exec (.cmdSetBitrate p c) s = .next s.handedOver) ∧
    (s.rsp = .frame 0xA5#8 0x25#8 p c → exec (.cmdSetUpdfreq p c) s = .next s.handedOver) ∧
    (s.rsp = .frame 0xA5#8 0x35#8 0x01#8 0xDB#8 → exec .cmdQuery s = .next s.handedOver) ∧
    (s.rsp = .frame 0xA5#8 0x35#8 0x02#8 0xDC#8 → exec .cmdAutomatic s = .next s.handedOver) ∧
    (s.rsp = .frame 0xA5#8 0x45#8 p c → exec (.cmdSetEmis p c) s = .next s.handedOver) ∧
    (s.rsp = .frame 0xA5#8 0x55#8 0x01#8 0xFB#8 → exec .cmdGetEmis s = .next s.handedOver) ∧
    (s.rsp = .frame 0xA5#8 0x65#8 0x01#8 0x0B#8 → exec .cmdSave s = .next s.handedOver)

/-- A CMD row whose frame RSP does not hold is no transfer: nothing changes (the model's choice, log 2). -/
def Obligations.CommandFrameNotPresented : Prop :=
  ∀ (i : Instr) (s : State) (b0 b1 b2 b3 : Byte), encode i = .cmd b0 b1 b2 b3 → s.rsp ≠ .frame b0 b1 b2 b3 →
    exec i s = .next s

/-- Whatever frame the encoder answers a request with is a CMD row, and the host's taking of it hands over exactly its
bytes (R33, R91, R101). -/
def Obligations.EncodedFrameIsHandedOver : Prop :=
  ∀ (i : Instr) (s t : State) (b0 b1 b2 b3 : Byte), isRequest i = true → s.rsp = .empty → exec i s = .next t →
    t.rsp = .frame b0 b1 b2 b3 →
    ∃ j : Instr, decodeCmd b0 b1 b2 b3 = .ok j ∧ encode j = .cmd b0 b1 b2 b3 ∧
      exec j t = .next { s with host := { s.host with rspOut := s.host.rspOut ++ [.frame b0 b1 b2 b3] } }

/-- Taking an Error response (R33): the step that the host's move makes hands it over and empties RSP; with RSP empty
there is nothing to take. -/
def Obligations.ErrorResponseTaken : Prop :=
  ∀ s : State, nextTurn s = some .takeResponse →
    (∀ code info, s.rsp = .error code info → step s = .next (popTurn s).handedOver) ∧
    (s.rsp = .empty → step s = .next (popTurn s))

/-! ### The receive port, RESET and STATUS -/

/-- PUSH(b) (R130, R203): accepted when Quiescent(B); appended with LEN and IN one more while LEN < CAP, else OVF is set
and the byte dropped; not accepted, and nothing changed, when B is not quiescent. -/
def Obligations.PushByte : Prop :=
  ∀ (b : Byte) (s : State),
    (quiescent s.inb.buf = true → s.inb.buf.length < s.cfg.cap →
      exec (.rxPush b) s = .next { s with inb := { s.inb with
        buf := s.inb.buf ++ [b], inCount := s.inb.inCount + 1, stream := s.inb.stream ++ [b] } }) ∧
    (quiescent s.inb.buf = true → s.cfg.cap ≤ s.inb.buf.length →
      exec (.rxPush b) s = .next { s with inb := { s.inb with ovf := true } }) ∧
    (quiescent s.inb.buf = false → exec (.rxPush b) s = .next s)

/-- With CAP at least 1544 a PUSH never finds LEN = CAP (R131): every accepted byte is appended, LEN is at most 1544
after it, and no SCAN step raises LEN. -/
def Obligations.PushNeverOverflows : Prop :=
  ∀ (b : Byte) (s : State), 1544 ≤ s.cfg.cap →
    (quiescent s.inb.buf = true →
      s.inb.buf.length < s.cfg.cap ∧ ∃ t, exec (.rxPush b) s = .next t ∧ t.inb.buf = s.inb.buf ++ [b] ∧
        t.inb.buf.length ≤ 1544 ∧ t.inb.ovf = s.inb.ovf) ∧
    (∀ t, scan s = .next t → t.inb.buf.length ≤ s.inb.buf.length)

/-- RESET (R230) from any state: every piece of the block's state at the value of R40, the parameters and the host's side
kept, and STATUS 0x00020000 after it. -/
def Obligations.ResetClearsTheBlock : Prop :=
  ∀ s : State, ∃ t, exec .reset s = .next t ∧
    t = { s with
      rsp := .empty
      inb := { buf := [], ovf := false, evq := [], inCount := 0, posCount := 0, stream := [], trace := [] } } ∧
    t.Clean ∧ statusWord t = 0x00020000#32

/-- Right after RESET with any parameters the clean-entry predicate holds (R42), and so does the invariant of the inbound
path for parameters in their ranges; the reset state has the default parameters (R7, R8, R9, R11). -/
def Obligations.ResetStateIsClean : Prop :=
  (∀ c : Config, (State.resetWith c).Clean ∧ (c.Ok → (State.resetWith c).Inv)) ∧ State.reset.Inv ∧
    State.reset.cfg = ⟨2048, 1, ⟨0x00#8, 0x01#8, 0x02#8, 0x03#8, 0x04#8⟩, false⟩

/-- STATUS (R135): the read hands the host one word and changes nothing else; the word has the fields of R135 at the bits that
R36 gives them. -/
def Obligations.StatusWordLayout : Prop :=
  ∀ s : State, s.cfg.Ok → s.inb.buf.length ≤ s.cfg.cap →
    ∃ w : Word, exec .statusRead s =
        .next { s with host := { s.host with statusOut := s.host.statusOut ++ [w] } } ∧
      (w.extractLsb' 0 16).toNat = s.inb.buf.length ∧
      w.getLsbD 16 = s.inb.ovf ∧
      w.getLsbD 17 = quiescent s.inb.buf ∧
      w.getLsbD 18 = (quiescent s.inb.buf && decide (4 ≤ s.inb.buf.length)) ∧
      w.getLsbD 19 = decide (s.inb.evq ≠ []) ∧
      w.getLsbD 20 = decide (s.rsp ≠ .empty) ∧
      w.extractLsb' 21 11 = 0#11

/-! ### The decision function -/

/-- DECIDE(B) (R151), test by test, with the checksums written out (R180, R186). -/
def Obligations.DecisionByTests : Prop :=
  ∀ B : List Byte,
    (B.length < 4 → decision B = .ok .short) ∧
    (4 ≤ B.length → ¬ (B[0]? = some 0x5A#8 ∧ B[1]? = some 0x5A#8) → decision B = .ok .resync) ∧
    (TempHead B → B.length < 1544 → decision B = .ok .tempWait) ∧
    (TempHead B → 1544 ≤ B.length → ∀ stored, wordAt B 1542 = some stored →
      (wordSum B % 65536 = stored.toNat → decision B = .ok .tempAccept) ∧
      (wordSum B % 65536 ≠ stored.toNat → decision B = .ok .tempReject)) ∧
    (B[0]? = some 0x5A#8 → B[1]? = some 0x5A#8 → ∀ v c, B[2]? = some v → B[3]? = some c →
      ¬ (v = 0x02#8 ∧ c = 0x06#8) →
      (c.toNat = (0xB4 + v.toNat) % 256 → decision B = .ok .emisAccept) ∧
      (c.toNat ≠ (0xB4 + v.toNat) % 256 → decision B = .ok .emisReject))

/-- Quiescence (R150): the predicate is R150's formula, it holds exactly when DECIDE(B) is SHORT or TEMP_WAIT, and then no
scanner step is enabled and the receive port is ready. -/
def Obligations.QuiescentExactlyWhenNoStep : Prop :=
  ∀ B : List Byte,
    (quiescent B = true ↔ B.length < 4 ∨ (TempHead B ∧ B.length < 1544)) ∧
    (quiescent B = true ↔ decision B = .ok .short ∨ decision B = .ok .tempWait) ∧
    (∀ s : State, s.inb.buf = B → quiescent B = true → scanEnabled s = false ∧ rxReady s = true)

/-- In every quiescent state `LEN ≤ 3`, or a temperature candidate of at most 1543 bytes waits (R161). -/
def Obligations.QuiescentBufferIsShort : Prop :=
  ∀ s : State, rxReady s = true →
    (s.inb.buf.length ≤ 3 ∨ (4 ≤ s.inb.buf.length ∧ s.inb.buf.length ≤ 1543 ∧ TempHead s.inb.buf)) ∧
    s.inb.buf.length ≤ 1543

/-- No read passes LEN (R164): the decision, its record and its COMPACT are all within the valid prefix. -/
def Obligations.DecisionReadsWithinFill : Prop :=
  ∀ n : Inbound, ∃ d ev n', decision n.buf = .ok d ∧ eventOf d n.buf = .ok ev ∧ compact d.adv n = .ok n' ∧
    n'.posCount + n'.buf.length = n.posCount + n.buf.length

/-- Monotonicity (R162 steps 1 and 2): an advancing decision, and the record it emits, stay the same whatever bytes
follow. -/
def Obligations.DecisionMonotone : Prop :=
  ∀ (B C : List Byte) (d : Decision), decision B = .ok d → d.adv ≠ 0 →
    decision (B ++ C) = .ok d ∧ eventOf d (B ++ C) = eventOf d B

/-! ### Frames at the head of the buffer -/

/-- TEMP_FRAME with a good checksum and room in EVQ completes (R156): the record of its samples and ambient, read as
two's complement, goes to the tail of EVQ, 1544 bytes are consumed, and nothing else changes but the trace. -/
def Obligations.TempFrameAccepted : Prop :=
  ∀ (samples : List Half) (ambient checksum : Half) (rest : List Byte) (s : State), samples.length = 768 →
    s.inb.buf = tempBytes samples ambient checksum ++ rest →
    checksum.toNat = (0x5A5A + 0x0602 + sumHalves samples + ambient.toNat) % 65536 →
    s.inb.evq.length < s.cfg.evDepth →
    exec (.tempFrame samples ambient checksum) s = .next { s with inb := { s.inb with
      buf := rest
      posCount := s.inb.posCount + 1544
      evq := s.inb.evq ++ [.temp (samples.map BitVec.toInt) ambient.toInt]
      trace := s.inb.trace ++ (if s.cfg.dbgTrace then traceRecords .tempAccept rest else []) } }

/-- TEMP_FRAME with a bad checksum completes (R157): one byte is consumed, nothing is emitted, and nothing else changes
but the trace. -/
def Obligations.TempFrameRejected : Prop :=
  ∀ (samples : List Half) (ambient checksum : Half) (rest : List Byte) (s : State), samples.length = 768 →
    s.inb.buf = tempBytes samples ambient checksum ++ rest →
    checksum.toNat ≠ (0x5A5A + 0x0602 + sumHalves samples + ambient.toNat) % 65536 →
    exec (.tempFrame samples ambient checksum) s = .next { s with inb := { s.inb with
      buf := s.inb.buf.drop 1
      posCount := s.inb.posCount + 1
      trace := s.inb.trace ++ (if s.cfg.dbgTrace then traceRecords .tempReject (s.inb.buf.drop 1) else []) } }

/-- EMIS_FRAME with a good checksum and room in EVQ completes (R158): EMIS(value), any value, goes to the tail of EVQ, 4
bytes are consumed, and nothing else changes but the trace. -/
def Obligations.EmisFrameAccepted : Prop :=
  ∀ (value checksum : Byte) (rest : List Byte) (s : State), s.inb.buf = emisBytes value checksum ++ rest →
    checksum.toNat = (0xB4 + value.toNat) % 256 → s.inb.evq.length < s.cfg.evDepth →
    exec (.emisFrame value checksum) s = .next { s with inb := { s.inb with
      buf := rest
      posCount := s.inb.posCount + 4
      evq := s.inb.evq ++ [.emis value]
      trace := s.inb.trace ++ (if s.cfg.dbgTrace then traceRecords .emisAccept rest else []) } }

/-- EMIS_FRAME with a bad checksum and another type than a temperature frame's completes (R159): exactly one byte is
consumed, nothing is emitted, and nothing else changes but the trace. -/
def Obligations.EmisFrameRejected : Prop :=
  ∀ (value checksum : Byte) (rest : List Byte) (s : State), s.inb.buf = emisBytes value checksum ++ rest →
    ¬ (value = 0x02#8 ∧ checksum = 0x06#8) → checksum.toNat ≠ (0xB4 + value.toNat) % 256 →
    exec (.emisFrame value checksum) s = .next { s with inb := { s.inb with
      buf := s.inb.buf.drop 1
      posCount := s.inb.posCount + 1
      trace := s.inb.trace ++ (if s.cfg.dbgTrace then traceRecords .emisReject (s.inb.buf.drop 1) else []) } }

/-- An accepting decision is held while EVQ is full (R152, R239): nothing changes, and the receive port is not ready. That
a frame row whose frame does not stand at buffer offset 0 changes nothing is the model's choice (log 3). -/
def Obligations.AcceptHeldWhileQueueFull : Prop :=
  ∀ s : State, s.cfg.evDepth ≤ s.inb.evq.length →
    (decision s.inb.buf = .ok .tempAccept ∨ decision s.inb.buf = .ok .emisAccept) →
    scan s = .next s ∧ scanEnabled s = false ∧ rxReady s = false ∧
      (∀ samples ambient checksum, exec (.tempFrame samples ambient checksum) s = .next s) ∧
      (∀ value checksum, exec (.emisFrame value checksum) s = .next s)

/-- A frame row that does not stand at buffer offset 0 is no decision: nothing changes (the model's choice, log 3). -/
def Obligations.FrameNotAtHead : Prop :=
  (∀ (samples : List Half) (ambient checksum : Half) (s : State),
    ¬ tempBytes samples ambient checksum <+: s.inb.buf → exec (.tempFrame samples ambient checksum) s = .next s) ∧
  (∀ (value checksum : Byte) (s : State),
    ¬ emisBytes value checksum <+: s.inb.buf → exec (.emisFrame value checksum) s = .next s)

/-- The scanner's steps that no row names: RESYNC consumes one byte (R154); SHORT and TEMP_WAIT are no step (R153, R155). -/
def Obligations.ResyncShortAndWait : Prop :=
  ∀ s : State, nextTurn s = some .scan →
    (4 ≤ s.inb.buf.length → ¬ (s.inb.buf[0]? = some 0x5A#8 ∧ s.inb.buf[1]? = some 0x5A#8) →
      step s = .next { popTurn s with inb := { s.inb with
        buf := s.inb.buf.drop 1
        posCount := s.inb.posCount + 1
        trace := s.inb.trace ++ (if s.cfg.dbgTrace then traceRecords .resync (s.inb.buf.drop 1) else []) } }) ∧
    (s.inb.buf.length < 4 → step s = .next (popTurn s)) ∧
    (TempHead s.inb.buf → s.inb.buf.length < 1544 → step s = .next (popTurn s))

/-! ### Runs of the scanner -/

/-- Every enabled SCAN step lowers LEN by at least 1, and a SCAN step is enabled exactly when the buffer is not quiescent
and no accepting decision is held by a full EVQ (R152, R160): RESYNC and both rejects stay enabled with EVQ full. -/
def Obligations.EnabledScanShrinks : Prop :=
  ∀ s : State,
    (scanEnabled s = true → ∃ t, scan s = .next t ∧ t.inb.buf.length < s.inb.buf.length) ∧
    (scanEnabled s = false → scan s = .next s) ∧
    (scanEnabled s = true ↔ quiescent s.inb.buf = false ∧
      ¬ (s.cfg.evDepth ≤ s.inb.evq.length ∧
        (decision s.inb.buf = .ok .tempAccept ∨ decision s.inb.buf = .ok .emisAccept)))

/-- The run ends (R160): at most LEN decisions lead from any buffer to a quiescent one, which is an end part of it, and
more fuel changes nothing. -/
def Obligations.RunReachesQuiescence : Prop :=
  ∀ B : List Byte, quiescent (scanAll B).2 = true ∧ (scanAll B).2 <:+ B ∧
    ∀ fuel, B.length ≤ fuel → runBytes fuel B = scanAll B

/-- APPEND (R133) and the stream function law (R162): from a quiescent buffer, pushing the bytes of any chunk one by one,
each with its run to quiescence, gives the same records in the same order and leaves the same bytes as copying the whole
chunk and scanning once. -/
def Obligations.ChunkingDoesNotMatter : Prop :=
  ∀ B C : List Byte, quiescent B = true → feed B C = scanAll (B ++ C)

/-- The stream function law for the machine (R162): every step but RESET and the host's withdrawal of a byte keeps what
the inbound path has given and will give of the bytes it has and the bytes presented, whatever move is scheduled. -/
def Obligations.YieldConserved : Prop :=
  ∀ (s t : State) (τ : Turn), 1544 ≤ s.cfg.cap → nextTurn s = some τ → τ ≠ .reset → τ ≠ .withdrawByte →
    step s = .next t → t.yield = s.yield

/-- The source's cursor form (R167): with the skipped prefix discarded at the final stop it emits the same records and
leaves the same bytes. -/
def Obligations.CursorFormAgrees : Prop :=
  ∀ B : List Byte, runCursor B.length B 0 = scanAll B

/-! ### Checksums and decoders -/

/-- The temperature checksum (R180) is the sum of the 771 words at offsets 0, 2, …, 1540, mod 65536, and reads no byte at
offset 1542 or above. -/
def Obligations.TempChecksumIsWordSum : Prop :=
  ∀ F : List Byte, 1542 ≤ F.length → (tempSum F).toNat = wordSum F % 65536 ∧ ∀ G, tempSum (F.take 1542 ++ G) = tempSum F

/-- Checksum identities (R181): for a temperature candidate the sum is 0x605C plus its fields, whether they are read as
signed or as unsigned; all zeros give 0x605C, all −1 give 0x5D5B. -/
def Obligations.TempChecksumIdentities : Prop :=
  (∀ (samples : List Half) (ambient checksum : Half), samples.length = 768 →
    (tempSum (tempBytes samples ambient checksum)).toNat = (0x605C + sumHalves samples + ambient.toNat) % 65536 ∧
    ((tempSum (tempBytes samples ambient checksum)).toNat : Int) =
      (0x605C + (samples.map BitVec.toInt).sum + ambient.toInt) % 65536) ∧
  (∀ checksum, tempSum (tempBytes (List.replicate 768 0x0000#16) 0x0000#16 checksum) = 0x605C#16) ∧
  (∀ checksum, tempSum (tempBytes (List.replicate 768 0xFFFF#16) 0xFFFF#16 checksum) = 0x5D5B#16)

/-- Sample and ambient decode (R182, R183): sample k is the two's-complement reading of the word at offset 4 + 2k, for
k = 0..767, and the ambient that of the word at offset 1540. -/
def Obligations.TempDecodeByIndex : Prop :=
  ∀ F : List Byte, 1544 ≤ F.length → ∃ samples ambient, decodeTemp F = .ok (.temp samples ambient) ∧
    samples.length = 768 ∧ (∀ k, k < 768 → samples[k]? = (wordAt F (4 + 2 * k)).map BitVec.toInt) ∧
    some ambient = (wordAt F 1540).map BitVec.toInt ∧ (Event.temp samples ambient).Ok

/-- A one-byte change of a valid temperature frame is never accepted (R189): at offsets 4..1543 the checksum test fails;
at offsets 0..3 it is a temperature candidate no more. -/
def Obligations.TempSingleByteChangeDetected : Prop :=
  ∀ (F : List Byte) (k : Nat) (b : Byte), F.length = 1544 → decision F = .ok .tempAccept → k < 1544 →
    F[k]? ≠ some b →
    (4 ≤ k → decision (F.set k b) = .ok .tempReject) ∧ (k < 4 → ¬ TempHead (F.set k b))

/-- A change of exactly one of the bytes F[2], F[3] of a valid emissivity frame makes its checksum test fail (R190): it is
rejected, or it has become a temperature candidate. -/
def Obligations.EmisSingleByteChangeDetected : Prop :=
  ∀ (v c v' c' : Byte) (rest : List Byte), c.toNat = (0xB4 + v.toNat) % 256 →
    ((v' ≠ v ∧ c' = c) ∨ (v' = v ∧ c' ≠ c)) →
    c'.toNat ≠ (0xB4 + v'.toNat) % 256 ∧
    (decision (emisBytes v' c' ++ rest) = .ok .emisReject ∨ (v' = 0x02#8 ∧ c' = 0x06#8))

/-- No well-formed EMIS frame is taken for a temperature candidate (R165): every one is decoded as itself and accepted. -/
def Obligations.EmisFrameNeverTemp : Prop :=
  ∀ (v c : Byte) (rest : List Byte), c.toNat = (0xB4 + v.toNat) % 256 →
    (Instr.emisFrame v c).WellFormed ∧ decodeStream (emisBytes v c ++ rest) = .ok (.emisFrame v c, rest) ∧
    decision (emisBytes v c ++ rest) = .ok .emisAccept

/-- Limits of the checksums (R191): reordered samples pass, and every window 5A 5A x ecs(x) is accepted. -/
def Obligations.ChecksumLimits : Prop :=
  (∀ (xs ys : List Half) (ambient checksum : Half) (rest : List Byte), xs.length = 768 → xs.Perm ys →
    decision (tempBytes xs ambient checksum ++ rest) = decision (tempBytes ys ambient checksum ++ rest)) ∧
  (∀ (x : Byte) (rest : List Byte), (x, ecs x) ≠ (0x02#8, 0x06#8) →
    decision (emisBytes x (ecs x) ++ rest) = .ok .emisAccept)

/-! ### Encodings -/

/-- Decode and encode agree: for every well-formed operation, at every value of its operands, and for an inbound frame
whatever bytes follow it. -/
def Obligations.DecodeOfEncode : Prop :=
  (∀ i : Instr, i.WellFormed → decode (encode i) = .ok i) ∧
  (∀ (i : Instr) (bytes rest : List Byte), i.WellFormed → encode i = .inbound bytes →
    decodeStream (bytes ++ rest) = .ok (i, rest))

/-- No two transfers share an operation: what decodes to an operation is that operation's encoding, with, for an inbound
frame, the bytes that follow it; and what is decoded is well formed. -/
def Obligations.EncodeOfDecode : Prop :=
  (∀ (t : Transfer) (i : Instr), decode t = .ok i → i.WellFormed ∧
    (t = encode i ∨ ∃ bytes rest, encode i = .inbound bytes ∧ t = .inbound (bytes ++ rest))) ∧
  (∀ (B : List Byte) (i : Instr) (rest : List Byte), decodeStream B = .ok (i, rest) →
    ∃ bytes, encode i = .inbound bytes ∧ B = bytes ++ rest)

/-- Words written out from the spec's encodings (R70, R80, R84) decode to the operations they stand for. How a word of the
opcode table names its transfer, by its width (40 bits for the 35 of a request) and with byte 0 of a frame in bits 31:24, is
the model's reading of the table (log 14). -/
def Obligations.SpecWordsDecode : Prop :=
  decodeTableWord 40 0x100000010 = some (.setUpdfreq 16#32) ∧
  decodeTableWord 40 0x4FFFFFF9C = some (.setEmis 0xFFFFFF9C#32) ∧
  decodeTableWord 40 0x700000000 = some (.illegalOp7 0#32) ∧
  decodeTableWord 32 0xA51502BC = some (.cmdSetBitrate 0x02#8 0xBC#8) ∧
  decodeTableWord 32 0xA53502DC = some .cmdAutomatic ∧
  decodeTableWord 32 0x5A5A5F13 = some (.emisFrame 0x5F#8 0x13#8) ∧
  decodeTableWord 8 0x13 = some (.rxPush 0x13#8)

/-! ### The machine -/

/-- A step runs the decoded operation: each move runs `exec` of what its port or the buffer holds, on the state with the
move made and, where the handshake holds, the item taken from the port (R32, R33, R34, R36, R37, R152). -/
def Obligations.StepRunsDecoded : Prop :=
  ∀ s : State,
    (∀ w ws, nextTurn s = some .request → s.host.reqIn = w :: ws → s.rsp = .empty →
      step s = exec (decodeReq w) { popTurn s with host := { (popTurn s).host with reqIn := ws } }) ∧
    (∀ w ws, nextTurn s = some .request → s.host.reqIn = w :: ws → s.rsp ≠ .empty →
      step s = exec (decodeReq w) (popTurn s)) ∧
    (∀ b bs, nextTurn s = some .receive → s.host.rxIn = b :: bs → quiescent s.inb.buf = true →
      step s = exec (.rxPush b) { popTurn s with host := { (popTurn s).host with rxIn := bs } }) ∧
    (∀ b bs, nextTurn s = some .receive → s.host.rxIn = b :: bs → quiescent s.inb.buf = false →
      step s = exec (.rxPush b) (popTurn s)) ∧
    (∀ b0 b1 b2 b3 i, nextTurn s = some .takeResponse → s.rsp = .frame b0 b1 b2 b3 →
      decodeCmd b0 b1 b2 b3 = .ok i → step s = exec i (popTurn s)) ∧
    (∀ i rest, nextTurn s = some .scan → decodeStream s.inb.buf = .ok (i, rest) → step s = exec i (popTurn s)) ∧
    (nextTurn s = some .reset → step s = exec .reset (popTurn s)) ∧
    (nextTurn s = some .readStatus → step s = exec .statusRead (popTurn s))

/-- There is no trap (R209, R210), no access faults (R56, R164) and no operation is refused: from every state a step
answers a next state, and so does every operation. -/
def Obligations.NothingEverStops : Prop :=
  (∀ s : State, ∃ t, step s = .next t) ∧ (∀ (i : Instr) (s : State), ∃ t, exec i s = .next t)

/-- Every step keeps the invariant of the inbound path (R24, R31, R131, R134, R188). -/
def Obligations.StepKeepsInboundInvariant : Prop :=
  ∀ s t : State, s.Inv → step s = .next t → t.Inv

/-- Every step keeps RSP legal (R91, R112, R200): a CMD frame with a payload of R74 to R78 and its checksum, or one of the
three error records. -/
def Obligations.StepKeepsResponseLegal : Prop :=
  ∀ s t : State, s.rsp.Legal s.cfg.freqCode → step s = .next t → t.rsp.Legal t.cfg.freqCode

/-- Every step keeps the buffer within its capacity and the parameters as they are, in every state (R7, R21, R134). -/
def Obligations.StepKeepsCapacity : Prop :=
  ∀ s t : State, Memory.wf s.cfg.cap s.inb.buf → step s = .next t → t.cfg = s.cfg ∧ Memory.wf t.cfg.cap t.inb.buf

/-- The command path and the inbound path are disjoint (R41): a request neither changes nor reads the inbound path, and
an inbound operation neither changes nor reads RSP or what the host holds. -/
def Obligations.PathsAreDisjoint : Prop :=
  (∀ (i : Instr) (s t : State) (n : Inbound) (h : HostSide), isRequest i = true → exec i s = .next t →
    t.inb = s.inb ∧ t.host = s.host ∧
      exec i { s with inb := n, host := h } = .next { t with inb := n, host := h }) ∧
  (∀ (i : Instr) (s t : State) (r : Response) (h : HostSide), isInbound i = true → exec i s = .next t →
    t.rsp = s.rsp ∧ t.host = s.host ∧
      exec i { s with rsp := r, host := h } = .next { t with rsp := r, host := h })

/-- OVF is set only by the overflow case of PUSH and cleared only by RESET (R23). -/
def Obligations.OverflowFlagSticky : Prop :=
  ∀ (s t : State) (τ : Turn), nextTurn s = some τ → step s = .next t →
    (s.inb.ovf = true → t.inb.ovf = false → τ = .reset) ∧
    (s.inb.ovf = false → t.inb.ovf = true →
      τ = .receive ∧ s.host.rxIn ≠ [] ∧ quiescent s.inb.buf = true ∧ s.cfg.cap ≤ s.inb.buf.length)

/-- Only PUSH, COMPACT and RESET change the buffer (R136), and the stream position advances by 0, 1, 4 or 1544 (R28). -/
def Obligations.BufferChangesOnlyBy : Prop :=
  ∀ (s t : State) (τ : Turn), nextTurn s = some τ → step s = .next t →
    (t.inb.buf = s.inb.buf ∧ (t.inb.posCount = s.inb.posCount ∨ τ = .reset)) ∨
    (τ = .receive ∧ (∃ b, s.host.rxIn.head? = some b ∧ t.inb.buf = s.inb.buf ++ [b]) ∧
      t.inb.posCount = s.inb.posCount) ∨
    (τ = .scan ∧ ∃ k, (k = 1 ∨ k = 4 ∨ k = 1544) ∧ k ≤ s.inb.buf.length ∧ t.inb.buf = s.inb.buf.drop k ∧
      t.inb.posCount = s.inb.posCount + k) ∨
    (τ = .reset ∧ t.inb.buf = [] ∧ t.inb.posCount = 0)

/-- Records leave in the order they were emitted (R24, R61): taken and waiting records together grow only at the tail, by
at most one record a step, and only by a SCAN step; RESET alone discards records. -/
def Obligations.EventsInOrder : Prop :=
  ∀ (s t : State) (τ : Turn), nextTurn s = some τ → τ ≠ .reset → step s = .next t →
    ∃ new : List Event, t.host.evOut ++ t.inb.evq = s.host.evOut ++ s.inb.evq ++ new ∧ new.length ≤ 1 ∧
      (new ≠ [] → τ = .scan)

/-- With no move scheduled and a host that has promised to take what there is (R242), a machine with no move left is in a
final state (R43): the fixed order starves no agent. That order is the model's choice (log 5). -/
def Obligations.IdleOnlyWhenFinal : Prop :=
  ∀ s : State, s.cfg.Ok → s.host.sched = [] → s.host.promise = true → (nextTurn s = none ↔ s.Final)

/-- Taking an event (R35): the step that the host's move makes removes the head of EVQ and hands it over whole, and changes
nothing else; with EVQ empty there is nothing to take. -/
def Obligations.EventTaken : Prop :=
  ∀ s : State, nextTurn s = some .takeEvent →
    (∀ e rest, s.inb.evq = e :: rest → step s = .next { popTurn s with
      inb := { s.inb with evq := rest }
      host := { (popTurn s).host with evOut := s.host.evOut ++ [e] } }) ∧
    (s.inb.evq = [] → step s = .next (popTurn s))

/-- The decision trace (R166, R38): with DBG_TRACE each SCAN step outputs `(d, adv(d))`, and then `(SHORT, 0)` or
`(TEMP_WAIT, 0)` where it leads into quiescence; without it nothing is output. That the trace is a list kept since RESET,
and that only a SCAN step is a transition into quiescence, is the model's choice (log 10). -/
def Obligations.DecisionTrace : Prop :=
  ∀ (s t : State) (d : Decision), decision s.inb.buf = .ok d → scanEnabled s = true → scan s = .next t →
    (s.cfg.dbgTrace = false → t.inb.trace = s.inb.trace) ∧
    (s.cfg.dbgTrace = true → ∃ k : Nat,
      (d = .tempAccept ∧ k = 1544 ∨ d = .emisAccept ∧ k = 4 ∨
        (d = .resync ∨ d = .tempReject ∨ d = .emisReject) ∧ k = 1) ∧
      (quiescent t.inb.buf = false → t.inb.trace = s.inb.trace ++ [⟨d, k⟩]) ∧
      (t.inb.buf.length < 4 → t.inb.trace = s.inb.trace ++ [⟨d, k⟩, ⟨.short, 0⟩]) ∧
      (TempHead t.inb.buf → t.inb.buf.length < 1544 → t.inb.trace = s.inb.trace ++ [⟨d, k⟩, ⟨.tempWait, 0⟩]))

/-- COMPACT's ascending loop over BUF (R132) leaves, whether or not the regions overlap, what `compact` leaves: on an
inbound path that holds the valid prefix of BUF, `compact k` discards k bytes, adds k to POS and changes nothing else, and
the bytes it keeps are those that the loop leaves at offsets 0..LEN−k−1. -/
def Obligations.CompactLoopKeepsBytes : Prop :=
  ∀ (BUF : List Byte) (k len : Nat) (n : Inbound), 1 ≤ k → k ≤ len → len ≤ BUF.length → n.buf = BUF.take len →
    (moveDown BUF k len).length = BUF.length ∧
    ∃ n', compact k n = .ok n' ∧ n' = { n with buf := n.buf.drop k, posCount := n.posCount + k } ∧
      n'.buf.length = len - k ∧ (moveDown BUF k len).take (len - k) = n'.buf
end

