-- ==== Sys2Proof/Laws/Decode.lean ====
section
/-! SUPPORT. The byte-order helpers: what `le16`, `loByte`, `hiByte`, `words` and `unwords` say of each other. -/

namespace Sys2Proof

@[simp] theorem le16_toNat (lo hi : Byte) : (le16 lo hi).toNat = lo.toNat + 256 * hi.toNat := by
  have := lo.isLt; have := hi.isLt
  simp only [le16, BitVec.toNat_ofNat]; omega

@[simp] theorem loByte_toNat (w : Half) : (loByte w).toNat = w.toNat % 256 := by
  simp [loByte, BitVec.toNat_setWidth]

@[simp] theorem hiByte_toNat (w : Half) : (hiByte w).toNat = w.toNat / 256 := by
  have := w.isLt
  simp only [hiByte, BitVec.toNat_setWidth, BitVec.toNat_ushiftRight, Nat.shiftRight_eq_div_pow]; omega

@[simp] theorem le16_lo_hi (w : Half) : le16 (loByte w) (hiByte w) = w := by
  apply BitVec.eq_of_toNat_eq; simp; omega

@[simp] theorem loByte_le16 (lo hi : Byte) : loByte (le16 lo hi) = lo := by
  have := lo.isLt
  apply BitVec.eq_of_toNat_eq; simp; omega

@[simp] theorem hiByte_le16 (lo hi : Byte) : hiByte (le16 lo hi) = hi := by
  have := lo.isLt
  apply BitVec.eq_of_toNat_eq; simp; omega

/-- The type test on the 16-bit field is the test on its two bytes (R54, R82). -/
theorem le16_eq_tempType (lo hi : Byte) : le16 lo hi = tempType ↔ lo = 0x02#8 ∧ hi = 0x06#8 := by
  constructor
  · intro h
    have h' := congrArg BitVec.toNat h
    have := lo.isLt; have := hi.isLt
    simp [tempType] at h'
    exact ⟨BitVec.eq_of_toNat_eq (by simp; omega), BitVec.eq_of_toNat_eq (by simp; omega)⟩
  · rintro ⟨rfl, rfl⟩; rfl

@[simp] theorem unwords_length (ws : List Half) : (unwords ws).length = 2 * ws.length := by
  induction ws with
  | nil => rfl
  | cons w ws ih => simp [unwords, ih]; omega

@[simp] theorem words_unwords (ws : List Half) : words (unwords ws) = ws := by
  induction ws with
  | nil => rfl
  | cons w ws ih => simp [unwords, words, ih]

@[simp] theorem unwords_append (a b : List Half) : unwords (a ++ b) = unwords a ++ unwords b := by
  induction a with
  | nil => rfl
  | cons w a ih => simp [unwords, ih]

@[simp] theorem words_length : ∀ B : List Byte, (words B).length = B.length / 2
  | [] => rfl
  | [_] => by simp [words]
  | _ :: _ :: rest => by simp [words, words_length rest]; omega

/-- Words laid end to end: after an even number of bytes, the words of a sequence go on. -/
theorem words_append : ∀ (A B : List Byte), A.length % 2 = 0 → words (A ++ B) = words A ++ words B
  | [], _, _ => rfl
  | [_], _, h => by simp at h
  | a :: b :: rest, B, h => by
    have : rest.length % 2 = 0 := by simp only [List.length_cons] at h; omega
    simp [words, words_append rest B this]

/-- `unwords` gives back the bytes that an even number of them made words of. -/
theorem unwords_words : ∀ B : List Byte, B.length % 2 = 0 → unwords (words B) = B
  | [], _ => rfl
  | [_], h => by simp at h
  | a :: b :: rest, h => by
    have : rest.length % 2 = 0 := by simp only [List.length_cons] at h; omega
    simp [words, unwords, unwords_words rest this]

/-- Dropping `2k` bytes drops `k` words. -/
theorem words_drop : ∀ (k : Nat) (B : List Byte), words (B.drop (2 * k)) = (words B).drop k
  | 0, _ => rfl
  | _ + 1, [] => by simp [words]
  | k + 1, [_] => by simp [words, Nat.mul_add]
  | k + 1, a :: b :: rest => by simp [words, Nat.mul_add, words_drop k rest]

/-- Taking `2k` bytes takes `k` words. -/
theorem words_take : ∀ (k : Nat) (B : List Byte), words (B.take (2 * k)) = (words B).take k
  | 0, _ => rfl
  | _ + 1, [] => by simp [words]
  | k + 1, [a] => by simp [words, Nat.mul_add]
  | k + 1, a :: b :: rest => by simp [words, Nat.mul_add, words_take k rest]

/-! ### Request words and well-formedness -/

/-- A request word as a number: the selector above the argument (R70). -/
theorem reqWord_toNat (op : BitVec 3) (arg : Word) : (reqWord op arg).toNat = op.toNat * 2 ^ 32 + arg.toNat := by
  have h : (reqWord op arg).toNat = (op ++ arg : BitVec (3 + 32)).toNat := rfl
  rw [h, BitVec.toNat_append, Nat.shiftLeft_eq, ← Nat.shiftLeft_eq, ← Nat.shiftLeft_add_eq_or_of_lt arg.isLt,
    Nat.shiftLeft_eq]

/-- Bits 34:32 of a request word are its selector (R70). -/
@[simp] theorem reqWord_op (op : BitVec 3) (arg : Word) : (reqWord op arg).extractLsb' 32 3 = op := by
  have := op.isLt; have := arg.isLt
  apply BitVec.eq_of_toNat_eq
  rw [BitVec.extractLsb'_toNat, reqWord_toNat, Nat.shiftRight_eq_div_pow]; omega

/-- Bits 31:0 of a request word are its argument (R70). -/
@[simp] theorem reqWord_arg (op : BitVec 3) (arg : Word) : (reqWord op arg).extractLsb' 0 32 = arg := by
  have := op.isLt; have := arg.isLt
  apply BitVec.eq_of_toNat_eq
  rw [BitVec.extractLsb'_toNat, reqWord_toNat, Nat.shiftRight_eq_div_pow]; omega

/-- A TEMP frame is well formed exactly with 768 samples (R83). -/
@[simp] theorem wellFormed_tempFrame (samples : List Half) (ambient checksum : Half) :
    (Instr.tempFrame samples ambient checksum).WellFormed ↔ samples.length = nSamples := by
  simp [Instr.WellFormed, Instr.wellFormed]

/-- An EMIS frame is well formed exactly where its last two bytes are not the temperature type (R82, R151). -/
@[simp] theorem wellFormed_emisFrame (value checksum : Byte) :
    (Instr.emisFrame value checksum).WellFormed ↔ ¬ (value = 0x02#8 ∧ checksum = 0x06#8) := by
  simp [Instr.WellFormed, Instr.wellFormed, imp_iff_not_or]

@[simp] theorem tempBytes_length (samples : List Half) (ambient checksum : Half) :
    (tempBytes samples ambient checksum).length = 8 + 2 * samples.length := by
  simp [tempBytes]; omega

@[simp] theorem emisBytes_length (value checksum : Byte) : (emisBytes value checksum).length = 4 := rfl

end Sys2Proof
end

