-- ==== Sys2Proof/Laws/State.lean ====
section
/-! SUPPORT. One lemma per field per update of the state, and what each operation of the host does to each part. -/

namespace Sys2Proof.Machine

/-! ### The three setters -/

@[simp] theorem State.setRsp_cfg (s : State) (r : Response) : (s.setRsp r).cfg = s.cfg := rfl
@[simp] theorem State.setRsp_rsp (s : State) (r : Response) : (s.setRsp r).rsp = r := rfl
@[simp] theorem State.setRsp_inb (s : State) (r : Response) : (s.setRsp r).inb = s.inb := rfl
@[simp] theorem State.setRsp_host (s : State) (r : Response) : (s.setRsp r).host = s.host := rfl
@[simp] theorem State.setInb_cfg (s : State) (n : Inbound) : (s.setInb n).cfg = s.cfg := rfl
@[simp] theorem State.setInb_rsp (s : State) (n : Inbound) : (s.setInb n).rsp = s.rsp := rfl
@[simp] theorem State.setInb_inb (s : State) (n : Inbound) : (s.setInb n).inb = n := rfl
@[simp] theorem State.setInb_host (s : State) (n : Inbound) : (s.setInb n).host = s.host := rfl
@[simp] theorem State.setHost_cfg (s : State) (h : HostSide) : (s.setHost h).cfg = s.cfg := rfl
@[simp] theorem State.setHost_rsp (s : State) (h : HostSide) : (s.setHost h).rsp = s.rsp := rfl
@[simp] theorem State.setHost_inb (s : State) (h : HostSide) : (s.setHost h).inb = s.inb := rfl
@[simp] theorem State.setHost_host (s : State) (h : HostSide) : (s.setHost h).host = h := rfl
@[simp] theorem State.setInb_self (s : State) : s.setInb s.inb = s := rfl

/-! ### The inbound path's updates -/

@[simp] theorem memAppend_buf (n : Inbound) (b : Byte) : (memAppend n b).buf = n.buf ++ [b] := rfl
@[simp] theorem memAppend_ovf (n : Inbound) (b : Byte) : (memAppend n b).ovf = n.ovf := rfl
@[simp] theorem memAppend_evq (n : Inbound) (b : Byte) : (memAppend n b).evq = n.evq := rfl
@[simp] theorem memAppend_inCount (n : Inbound) (b : Byte) : (memAppend n b).inCount = n.inCount + 1 := rfl
@[simp] theorem memAppend_posCount (n : Inbound) (b : Byte) : (memAppend n b).posCount = n.posCount := rfl
@[simp] theorem memAppend_stream (n : Inbound) (b : Byte) : (memAppend n b).stream = n.stream ++ [b] := rfl
@[simp] theorem memAppend_trace (n : Inbound) (b : Byte) : (memAppend n b).trace = n.trace := rfl
@[simp] theorem emit_buf (n : Inbound) (e : Event) : (emit n e).buf = n.buf := rfl
@[simp] theorem emit_ovf (n : Inbound) (e : Event) : (emit n e).ovf = n.ovf := rfl
@[simp] theorem emit_evq (n : Inbound) (e : Event) : (emit n e).evq = n.evq ++ [e] := rfl
@[simp] theorem emit_inCount (n : Inbound) (e : Event) : (emit n e).inCount = n.inCount := rfl
@[simp] theorem emit_posCount (n : Inbound) (e : Event) : (emit n e).posCount = n.posCount := rfl
@[simp] theorem emit_stream (n : Inbound) (e : Event) : (emit n e).stream = n.stream := rfl
@[simp] theorem emit_trace (n : Inbound) (e : Event) : (emit n e).trace = n.trace := rfl
@[simp] theorem raiseOverflow_buf (n : Inbound) : (raiseOverflow n).buf = n.buf := rfl
@[simp] theorem raiseOverflow_ovf (n : Inbound) : (raiseOverflow n).ovf = true := rfl
@[simp] theorem raiseOverflow_evq (n : Inbound) : (raiseOverflow n).evq = n.evq := rfl
@[simp] theorem raiseOverflow_inCount (n : Inbound) : (raiseOverflow n).inCount = n.inCount := rfl
@[simp] theorem raiseOverflow_posCount (n : Inbound) : (raiseOverflow n).posCount = n.posCount := rfl
@[simp] theorem raiseOverflow_stream (n : Inbound) : (raiseOverflow n).stream = n.stream := rfl
@[simp] theorem raiseOverflow_trace (n : Inbound) : (raiseOverflow n).trace = n.trace := rfl

/-- The trace port's output is all that `traceStep` changes. -/
theorem traceStep_eq (cfg : Config) (d : Decision) (n : Inbound) :
    traceStep cfg d n =
      { n with trace := n.trace ++ (if cfg.dbgTrace then traceRecords d n.buf else []) } := by
  unfold traceStep; split <;> simp

@[simp] theorem traceStep_buf (cfg : Config) (d : Decision) (n : Inbound) : (traceStep cfg d n).buf = n.buf := by
  rw [traceStep_eq]
@[simp] theorem traceStep_ovf (cfg : Config) (d : Decision) (n : Inbound) : (traceStep cfg d n).ovf = n.ovf := by
  rw [traceStep_eq]
@[simp] theorem traceStep_evq (cfg : Config) (d : Decision) (n : Inbound) : (traceStep cfg d n).evq = n.evq := by
  rw [traceStep_eq]
@[simp] theorem traceStep_inCount (cfg : Config) (d : Decision) (n : Inbound) :
    (traceStep cfg d n).inCount = n.inCount := by rw [traceStep_eq]
@[simp] theorem traceStep_posCount (cfg : Config) (d : Decision) (n : Inbound) :
    (traceStep cfg d n).posCount = n.posCount := by rw [traceStep_eq]
@[simp] theorem traceStep_stream (cfg : Config) (d : Decision) (n : Inbound) :
    (traceStep cfg d n).stream = n.stream := by rw [traceStep_eq]

/-! ### The host's moves -/

@[simp] theorem respond_cfg (s : State) (r : Response) : (respond s r).cfg = s.cfg := rfl
@[simp] theorem respond_rsp (s : State) (r : Response) : (respond s r).rsp = r := rfl
@[simp] theorem respond_inb (s : State) (r : Response) : (respond s r).inb = s.inb := rfl
@[simp] theorem respond_host (s : State) (r : Response) : (respond s r).host = s.host := rfl
@[simp] theorem takeResponse_cfg (s : State) : (takeResponse s).cfg = s.cfg := by unfold takeResponse; split <;> rfl
@[simp] theorem takeResponse_rsp (s : State) : (takeResponse s).rsp = .empty := by
  unfold takeResponse; split <;> simp_all
@[simp] theorem takeResponse_inb (s : State) : (takeResponse s).inb = s.inb := by unfold takeResponse; split <;> rfl
@[simp] theorem takeEvent_cfg (s : State) : (takeEvent s).cfg = s.cfg := by unfold takeEvent; split <;> rfl
@[simp] theorem takeEvent_rsp (s : State) : (takeEvent s).rsp = s.rsp := by unfold takeEvent; split <;> rfl
@[simp] theorem takeEvent_inb (s : State) : (takeEvent s).inb = { s.inb with evq := s.inb.evq.tail } := by
  unfold takeEvent; split <;> rename_i h
  · cases hs : s.inb; simp_all
  · simp [h]
@[simp] theorem readStatus_cfg (s : State) : (readStatus s).cfg = s.cfg := rfl
@[simp] theorem readStatus_rsp (s : State) : (readStatus s).rsp = s.rsp := rfl
@[simp] theorem readStatus_inb (s : State) : (readStatus s).inb = s.inb := rfl
@[simp] theorem resetBlock_cfg (s : State) : (resetBlock s).cfg = s.cfg := rfl
@[simp] theorem resetBlock_rsp (s : State) : (resetBlock s).rsp = .empty := rfl
@[simp] theorem resetBlock_inb (s : State) : (resetBlock s).inb = Inbound.reset := rfl
@[simp] theorem resetBlock_host (s : State) : (resetBlock s).host = s.host := rfl
@[simp] theorem withdrawByte_cfg (s : State) : (withdrawByte s).cfg = s.cfg := rfl
@[simp] theorem withdrawByte_rsp (s : State) : (withdrawByte s).rsp = s.rsp := rfl
@[simp] theorem withdrawByte_inb (s : State) : (withdrawByte s).inb = s.inb := rfl
@[simp] theorem popTurn_cfg (s : State) : (popTurn s).cfg = s.cfg := rfl
@[simp] theorem popTurn_rsp (s : State) : (popTurn s).rsp = s.rsp := rfl
@[simp] theorem popTurn_inb (s : State) : (popTurn s).inb = s.inb := rfl
@[simp] theorem popTurn_reqIn (s : State) : (popTurn s).host.reqIn = s.host.reqIn := rfl
@[simp] theorem popTurn_rxIn (s : State) : (popTurn s).host.rxIn = s.host.rxIn := rfl
@[simp] theorem popTurn_evOut (s : State) : (popTurn s).host.evOut = s.host.evOut := rfl
@[simp] theorem popTurn_sched (s : State) : (popTurn s).host.sched = s.host.sched.tail := rfl

/-- The move scheduled first is the next one. -/
@[simp] theorem nextTurn_schedule (t : Turn) (s : State) : nextTurn (schedule t s) = some t := rfl

/-- Making a move just scheduled leaves the state it was scheduled in. -/
@[simp] theorem popTurn_schedule (t : Turn) (s : State) : popTurn (schedule t s) = s := rfl

end Sys2Proof.Machine
end

