-- ==== Sys2Proof/Laws/Memory.lean ====
section
/-! SUPPORT. The buffer's operations: reads inside the valid prefix, COMPACT, the canonical form. -/

namespace Sys2Proof.Machine

/-- A read inside the valid prefix gives its bytes (R16). -/
theorem memRead_ok {B : List Byte} {o n : Nat} (h : o + n ≤ B.length) :
    memRead B o n = .ok ((B.drop o).take n) := by simp [memRead, h]

/-- A read that passes LEN faults, and no other read does (R16). -/
theorem memRead_error {B : List Byte} {o n : Nat} : memRead B o n = .error .readBeyondFill ↔ B.length < o + n := by
  unfold memRead; split
  · simp; omega
  · simp; omega

/-- A byte inside the valid prefix is read as it is. -/
theorem readByte_ok {B : List Byte} {o : Nat} {b : Byte} (h : B[o]? = some b) : readByte B o = .ok b := by
  have hl : o < B.length := by
    by_contra hc; rw [List.getElem?_eq_none (by omega)] at h; cases h
  have hd : B.drop o = b :: B.drop (o + 1) := by
    rw [List.drop_eq_getElem_cons hl]; simp_all
  rw [readByte, memRead_ok (by omega), hd]; rfl

/-- A sequence from an offset with two bytes after it. -/
theorem drop_eq_two {B : List Byte} {o : Nat} {lo hi : Byte} (h : B[o]? = some lo) (h' : B[o + 1]? = some hi) :
    B.drop o = lo :: hi :: B.drop (o + 2) := by
  obtain ⟨hl, rfl⟩ := List.getElem?_eq_some_iff.1 h
  obtain ⟨hl', rfl⟩ := List.getElem?_eq_some_iff.1 h'
  rw [List.drop_eq_getElem_cons hl, List.drop_eq_getElem_cons hl']

/-- A field inside the valid prefix is the `le16` of its two bytes (R55). -/
theorem readHalf_ok {B : List Byte} {o : Nat} {lo hi : Byte} (h : B[o]? = some lo) (h' : B[o + 1]? = some hi) :
    readHalf B o = .ok (le16 lo hi) := by
  have hl : o + 1 < B.length := (List.getElem?_eq_some_iff.1 h').1
  rw [readHalf, memRead_ok (by omega), drop_eq_two h h']; rfl

/-- Two bytes at an offset inside the valid prefix. -/
theorem exists_two_bytes {B : List Byte} {o : Nat} (h : o + 2 ≤ B.length) :
    ∃ lo hi, B[o]? = some lo ∧ B[o + 1]? = some hi :=
  ⟨B[o], B[o + 1], by simp, by simp⟩

/-- COMPACT(k) within LEN drops `k` bytes and moves the stream position on (R132). -/
theorem compact_ok {k : Nat} {n : Inbound} (h : k ≤ n.buf.length) :
    compact k n = .ok { n with buf := n.buf.drop k, posCount := n.posCount + k } := by simp [compact, h]

/-- What an answer of COMPACT says: it was within LEN, and the result is R132's. -/
theorem compact_eq_ok {k : Nat} {n n' : Inbound} (h : compact k n = .ok n') :
    k ≤ n.buf.length ∧ n' = { n with buf := n.buf.drop k, posCount := n.posCount + k } := by
  unfold compact at h; split at h
  · exact ⟨‹_›, by simpa using h.symm⟩
  · cases h

/-! ### The canonical form -/

/-- COMPACT keeps the canonical form. -/
theorem compact_wf {cap k : Nat} {n n' : Inbound} (h : compact k n = .ok n') (hw : Memory.wf cap n.buf) :
    Memory.wf cap n'.buf := by
  obtain ⟨-, rfl⟩ := compact_eq_ok h
  simp [Memory.wf] at *; omega

/-- PUSH keeps the canonical form: it appends below CAP and drops the byte at CAP (R130). -/
theorem pushByte_wf {cap : Nat} {n : Inbound} {b : Byte} (hw : Memory.wf cap n.buf) :
    Memory.wf cap (pushByte cap n b).buf := by
  unfold pushByte; split <;> simp_all [Memory.wf]

/-- RESET's memory has the canonical form. -/
theorem reset_wf (cap : Nat) : Memory.wf cap Inbound.reset.buf := by simp [Memory.wf, Inbound.reset]

/-- Every address listed lies in `[base, base + |B|)`. -/
theorem mem_cells {base : Nat} {B : List Byte} {c : Host.Cell} (h : c ∈ Memory.cells base B) :
    base ≤ c.1 ∧ c.1 < base + B.length := by
  induction B generalizing base with
  | nil => simp [Memory.cells] at h
  | cons b B ih =>
    simp only [Memory.cells, List.mem_cons] at h
    rcases h with rfl | h
    · simp
    · have := ih h; simp; omega

/-- The buffer's (address, byte) pairs have strictly rising addresses. -/
theorem cells_rising (base : Nat) (B : List Byte) :
    (Memory.cells base B).Pairwise fun c c' => c.1 < c'.1 := by
  induction B generalizing base with
  | nil => simp [Memory.cells]
  | cons b B ih =>
    simp only [Memory.cells, List.pairwise_cons]
    exact ⟨fun c h => by have := mem_cells h; simp; omega, ih _⟩

/-- Equal pairs are equal buffers: the form is canonical. -/
theorem cells_injective (base : Nat) {B B' : List Byte} (h : Memory.cells base B = Memory.cells base B') : B = B' := by
  induction B generalizing base B' with
  | nil => cases B' <;> simp_all [Memory.cells]
  | cons b B ih =>
    cases B' with
    | nil => simp [Memory.cells] at h
    | cons b' B' =>
      simp only [Memory.cells, List.cons.injEq, Prod.mk.injEq, true_and] at h
      rw [h.1, ih _ h.2]

end Sys2Proof.Machine
end

