-- ==== Sys2Proof/Laws/Scanner.lean ====
section
/-! SUPPORT. What the scanner's operations can do: the decision function with its reads resolved, the record an accepting
decision emits, and every case of a SCAN step. -/

namespace Sys2Proof.Machine

/-- DECIDE below MIN_DECIDE (R153). -/
theorem decision_short {B : List Byte} (h : B.length < 4) : decision B = .ok .short := by
  simp [decision, minDecide, h]

/-- The word that stands at offset 1542 of a buffer of 1544 bytes or more. -/
theorem readHalf_checksum {B : List Byte} (h : frameSize ≤ B.length) :
    ∃ stored, wordAt B checksumOffset = some stored ∧ readHalf B checksumOffset = .ok stored := by
  have hl : checksumOffset + 2 ≤ B.length := by simp [checksumOffset, frameSize] at *; omega
  obtain ⟨lo, hi, h1, h2⟩ := exists_two_bytes hl
  refine ⟨le16 lo hi, ?_, readHalf_ok h1 h2⟩
  simp [wordAt, drop_eq_two h1 h2]

/-- DECIDE from four bytes on, as R151's chain of tests with every read resolved. -/
theorem decision_cons (b0 b1 b2 b3 : Byte) (rest : List Byte) :
    decision (b0 :: b1 :: b2 :: b3 :: rest) =
      if ¬ (b0 = hdrByte ∧ b1 = hdrByte) then .ok .resync
      else if b2 = 0x02#8 ∧ b3 = 0x06#8 then
        if rest.length < 1540 then .ok .tempWait
        else if wordAt (b0 :: b1 :: b2 :: b3 :: rest) checksumOffset =
            some (tempSum ((b0 :: b1 :: b2 :: b3 :: rest).take frameSize)) then .ok .tempAccept
        else .ok .tempReject
      else if b3 = ecs b2 then .ok .emisAccept
      else .ok .emisReject := by
  have h0 : memRead (b0 :: b1 :: b2 :: b3 :: rest) 0 2 = .ok [b0, b1] := by simp [memRead]
  have h2 : readHalf (b0 :: b1 :: b2 :: b3 :: rest) 2 = .ok (le16 b2 b3) := readHalf_ok rfl rfl
  have hv : readByte (b0 :: b1 :: b2 :: b3 :: rest) 2 = .ok b2 := readByte_ok rfl
  have hc : readByte (b0 :: b1 :: b2 :: b3 :: rest) 3 = .ok b3 := readByte_ok rfl
  have hlen : (b0 :: b1 :: b2 :: b3 :: rest).length = rest.length + 4 := rfl
  rw [decision, if_neg (by simp [minDecide]), h0]
  by_cases hh : b0 = hdrByte ∧ b1 = hdrByte
  · obtain ⟨rfl, rfl⟩ := hh
    simp only [bind, Except.bind, ne_eq, not_true_eq_false, if_false, and_self]
    rw [h2]
    simp only [le16_eq_tempType]
    by_cases ht : b2 = 0x02#8 ∧ b3 = 0x06#8
    · simp only [if_pos ht]
      by_cases hl : rest.length < 1540
      · rw [if_pos (by simp [frameSize]; omega), if_pos hl]; rfl
      · rw [if_neg (by simp [frameSize]; omega), if_neg hl]
        obtain ⟨stored, hw, hr⟩ := readHalf_checksum (B := hdrByte :: hdrByte :: b2 :: b3 :: rest)
          (by simp [frameSize]; omega)
        rw [memRead_ok (by simp [frameSize]; omega), hr, hw]
        simp only [List.drop_zero, Option.some.injEq]
        by_cases hs : tempSum ((hdrByte :: hdrByte :: b2 :: b3 :: rest).take frameSize) = stored
        · simp [hs, pure, Except.pure]
        · rw [if_neg hs, if_neg (fun h => hs h.symm)]; rfl
    · simp only [if_neg ht]
      rw [hv, hc]
      by_cases he : b3 = ecs b2 <;> simp [he, pure, Except.pure]
  · have : [b0, b1] ≠ [hdrByte, hdrByte] := by simpa using hh
    simp [hh, this, bind, Except.bind, pure, Except.pure]

/-- A buffer is shorter than four bytes or begins with four. -/
theorem short_or_cons (B : List Byte) : B.length < 4 ∨ ∃ b0 b1 b2 b3 rest, B = b0 :: b1 :: b2 :: b3 :: rest := by
  match B with
  | [] => simp
  | [_] => simp
  | [_, _] => simp
  | [_, _, _] => simp
  | b0 :: b1 :: b2 :: b3 :: rest => exact .inr ⟨b0, b1, b2, b3, rest, rfl⟩

/-- Every case of DECIDE, with what it needs of the buffer: no case is a fault (R151, R164). -/
theorem decision_cases (B : List Byte) :
    (decision B = .ok .short ∧ B.length < 4) ∨
    (4 ≤ B.length ∧ (decision B = .ok .resync ∨ decision B = .ok .emisAccept ∨ decision B = .ok .emisReject)) ∨
    (decision B = .ok .tempWait ∧ 4 ≤ B.length ∧ B.length < 1544) ∨
    (1544 ≤ B.length ∧ (decision B = .ok .tempAccept ∨ decision B = .ok .tempReject)) := by
  rcases short_or_cons B with h | ⟨b0, b1, b2, b3, rest, rfl⟩
  · exact .inl ⟨decision_short h, h⟩
  · rw [decision_cons]
    simp only [List.length_cons]
    split_ifs <;> simp <;> omega

/-- Each decision's advance lies within LEN (R132, R164). -/
theorem adv_le {B : List Byte} {d : Decision} (h : decision B = .ok d) : d.adv ≤ B.length := by
  rcases decision_cases B with ⟨h', -⟩ | ⟨hl, h' | h' | h'⟩ | ⟨h', -⟩ | ⟨hl, h' | h'⟩ <;>
    (rw [h] at h'; cases h'; simp [Decision.adv]) <;> omega

/-- The record of an accepting decision, and none of the others (R152, R156, R158). -/
theorem eventOf_ok {B : List Byte} {d : Decision} (h : decision B = .ok d) :
    ∃ ev, eventOf d B = .ok ev ∧
      (ev.isSome ↔ d = .tempAccept ∨ d = .emisAccept) := by
  have key : d = .tempAccept ∨ d = .emisAccept ∨ (d ≠ .tempAccept ∧ d ≠ .emisAccept) := by
    cases d <;> simp
  rcases key with rfl | rfl | ⟨h1, h2⟩
  · have hl : 1544 ≤ B.length := adv_le h
    obtain ⟨lo, hi, ha, hb⟩ := exists_two_bytes (B := B) (o := ambientOffset) (by simp [ambientOffset]; omega)
    refine ⟨some (.temp (samplesOf (B.take frameSize)) (s16 (le16 lo hi))), ?_, by simp⟩
    rw [eventOf, decodeTemp, memRead_ok (by simp [frameSize]; omega), readHalf_ok ha hb]; rfl
  · have hl : 4 ≤ B.length := adv_le h
    rcases short_or_cons B with hs | ⟨b0, b1, b2, b3, rest, rfl⟩
    · omega
    · refine ⟨some (.emis b2), ?_, by simp⟩
      rw [eventOf, decodeEmis, readByte_ok (b := b2) rfl]; rfl
  · refine ⟨none, ?_, by simp [h1, h2]⟩
    cases d <;> simp_all [eventOf, pure, Except.pure]

/-- A decision of no advance is one of the two that are no step (R28). -/
theorem adv_eq_zero (d : Decision) : d.adv = 0 ↔ d = .short ∨ d = .tempWait := by
  cases d <;> simp [Decision.adv]

/-- The inbound path after an enabled SCAN step (R152). -/
def scanned (cfg : Config) (d : Decision) (ev : Option Event) (n : Inbound) : Inbound :=
  traceStep cfg d
    { n with evq := n.evq ++ ev.toList, buf := n.buf.drop d.adv, posCount := n.posCount + d.adv }

/-- An enabled decision takes its effect without a fault (R152, R164). -/
theorem applyDecision_ok {cfg : Config} {d : Decision} {ev : Option Event} {n : Inbound} (h : d.adv ≤ n.buf.length) :
    applyDecision cfg d ev n = .ok (scanned cfg d ev n) := by
  cases ev with
  | none => simp [applyDecision, compact_ok h, scanned, bind, Except.bind, pure, Except.pure]
  | some e =>
    simp [applyDecision, compact, h, scanned, bind, Except.bind, pure, Except.pure, emit]

/-- Everything a SCAN step can do: no step, a held step, or the effect of an advancing decision (R152). -/
theorem scanInbound_cases (cfg : Config) (n : Inbound) :
    ∃ d ev, decision n.buf = .ok d ∧ eventOf d n.buf = .ok ev ∧
      ((d.adv = 0 ∧ scanInbound cfg n = .ok n) ∨
       (d.adv ≠ 0 ∧ ev.isSome ∧ cfg.evDepth ≤ n.evq.length ∧ scanInbound cfg n = .ok n) ∨
       (d.adv ≠ 0 ∧ (ev.isSome → n.evq.length < cfg.evDepth) ∧
          scanInbound cfg n = .ok (scanned cfg d ev n))) := by
  obtain ⟨d, hd⟩ : ∃ d, decision n.buf = .ok d := by
    rcases decision_cases n.buf with ⟨h, -⟩ | ⟨-, h | h | h⟩ | ⟨h, -⟩ | ⟨-, h | h⟩ <;> exact ⟨_, h⟩
  obtain ⟨ev, hev, -⟩ := eventOf_ok hd
  refine ⟨d, ev, hd, hev, ?_⟩
  simp only [scanInbound, hd, hev, bind, Except.bind, pure, Except.pure]
  by_cases h0 : d.adv = 0
  · exact .inl ⟨h0, by simp [h0]⟩
  · by_cases hh : ev.isSome ∧ ¬ n.evq.length < cfg.evDepth
    · exact .inr (.inl ⟨h0, hh.1, by omega, by simp [h0, hh]⟩)
    · refine .inr (.inr ⟨h0, fun h => by by_contra hc; exact hh ⟨h, hc⟩, ?_⟩)
      rw [if_neg h0, if_neg hh, applyDecision_ok (adv_le hd)]

/-- A SCAN step always answers a next state, and changes the inbound path alone. -/
theorem scan_next (s : State) : ∃ n, scanInbound s.cfg s.inb = .ok n ∧ scan s = .next (s.setInb n) := by
  obtain ⟨d, ev, -, -, ⟨-, h⟩ | ⟨-, -, -, h⟩ | ⟨-, -, h⟩⟩ := scanInbound_cases s.cfg s.inb <;>
    exact ⟨_, h, by simp [scan, h]⟩

/-- A frame's meaning is the SCAN step where the frame stands at buffer offset 0, and nothing elsewhere. -/
theorem scanFrame_cases (F : List Byte) (s : State) :
    (F <+: s.inb.buf ∧ scanFrame F s = scan s) ∨ (¬ F <+: s.inb.buf ∧ scanFrame F s = .next s) := by
  by_cases h : F <+: s.inb.buf
  · exact .inl ⟨h, by simp [scanFrame, List.isPrefixOf_iff_prefix, h]⟩
  · exact .inr ⟨h, by simp [scanFrame, List.isPrefixOf_iff_prefix, h]⟩

end Sys2Proof.Machine
end

