-- ==== Sys2Proof/Laws/Exec.lean ====
section
/-! SUPPORT. One inversion lemma per shared operation of the meanings, and what any step runs. -/

namespace Sys2Proof.Machine

/-- An encoder step is accepted with RSP empty and waits otherwise (R101). -/
theorem encoderStep_cases (r : Response) (s : State) :
    (s.rsp = .empty ∧ encoderStep r s = .next (s.setRsp r)) ∨ (s.rsp ≠ .empty ∧ encoderStep r s = .next s) := by
  by_cases h : s.rsp = .empty
  · exact .inl ⟨h, by simp [encoderStep, reqReady, h, respond]⟩
  · exact .inr ⟨h, by simp [encoderStep, reqReady, h]⟩

/-- ENCODE(op, arg) (R100): the response of each request row under the table `f`; `empty` for the other rows. -/
def requestResponse (f : FreqCode) : Instr → Response
  | .setBitrate arg => encodeBitrate arg
  | .setUpdfreq arg => encodeUpdfreq f arg
  | .query _ => cmdFrame 0x35#8 0x01#8
  | .automatic _ => cmdFrame 0x35#8 0x02#8
  | .setEmis arg => cmdFrame 0x45#8 (emisPayload arg)
  | .getEmis _ => cmdFrame 0x55#8 0x01#8
  | .save _ => cmdFrame 0x65#8 0x01#8
  | .illegalOp7 _ => raiseError illegalCommand 0x07#8
  | _ => .empty

/-- Every request row is the encoder step of its response (R101). -/
theorem exec_request {i : Instr} (h : isRequest i = true) (s : State) :
    exec i s = encoderStep (requestResponse s.cfg.freqCode i) s := by
  cases i <;> first | rfl | simp [isRequest] at h

/-- The command checksum as a number (R79). -/
theorem cs8_toNat (b0 b1 b2 : Byte) : (cs8 b0 b1 b2).toNat = (b0.toNat + b1.toNat + b2.toNat) % 256 := by simp [cs8]

/-- The emissivity checksum as a number (R186). -/
theorem ecs_toNat (v : Byte) : (ecs v).toNat = (0xB4 + v.toNat) % 256 := by simp [ecs]

/-- `s16` is the two's-complement reading of 16 bits (K-G1). -/
theorem s16_eq_toInt (u : Half) : s16 u = u.toInt := by
  have := u.isLt
  rw [s16, BitVec.toInt_eq_toNat_cond]; split <;> split <;> omega

/-- `s32` is the two's-complement reading of 32 bits (K-G1). -/
theorem s32_eq_toInt (a : Word) : s32 a = a.toInt := by
  have := a.isLt
  rw [s32, BitVec.toInt_eq_toNat_cond]; split <;> split <;> omega

/-- The emissivity payload as a number: the signed argument clamped to 0..100 (R107). -/
theorem emisPayload_toNat (arg : Word) : ((emisPayload arg).toNat : Int) = max 0 (min 100 arg.toInt) := by
  rw [emisPayload, s32_eq_toInt, BitVec.toNat_ofInt]
  unfold clamp; split
  · omega
  · split <;> omega

/-- Taking a response that is there empties RSP and hands it over (R33). -/
theorem takeResponse_eq {s : State} (h : s.rsp ≠ .empty) : takeResponse s = s.handedOver := by
  rw [takeResponse, if_neg h]; rfl

/-- A frame's transfer takes it where RSP holds it, and does nothing elsewhere (R33). -/
theorem takeFrame_cases (b0 b1 b2 b3 : Byte) (s : State) :
    (s.rsp = .frame b0 b1 b2 b3 ∧ takeFrame b0 b1 b2 b3 s = .next (takeResponse s)) ∨
    (s.rsp ≠ .frame b0 b1 b2 b3 ∧ takeFrame b0 b1 b2 b3 s = .next s) := by
  by_cases h : s.rsp = .frame b0 b1 b2 b3
  · exact .inl ⟨h, by simp [takeFrame, h]⟩
  · exact .inr ⟨h, by simp [takeFrame, h]⟩

/-- A PUSH appends, overflows, or waits (R130). -/
theorem execRxPush_cases (b : Byte) (s : State) :
    (quiescent s.inb.buf = true ∧ s.inb.buf.length < s.cfg.cap ∧
        execRxPush b s = .next (s.setInb (memAppend s.inb b))) ∨
    (quiescent s.inb.buf = true ∧ s.cfg.cap ≤ s.inb.buf.length ∧
        execRxPush b s = .next (s.setInb (raiseOverflow s.inb))) ∨
    (quiescent s.inb.buf = false ∧ execRxPush b s = .next s) := by
  by_cases hq : quiescent s.inb.buf = true
  · by_cases hl : s.inb.buf.length < s.cfg.cap
    · exact .inl ⟨hq, hl, by simp [execRxPush, rxReady, hq, pushByte, hl]⟩
    · exact .inr (.inl ⟨hq, by omega, by simp [execRxPush, rxReady, hq, pushByte, hl]⟩)
  · exact .inr (.inr ⟨by simpa using hq, by simp [execRxPush, rxReady, hq]⟩)

end Sys2Proof.Machine
end

