-- ==== Sys2Proof/Laws/PerInstr.lean ====
section
/-! SUPPORT. Per-instruction family `RowBits`: the encoding of every operation has the fixed bits of its row of
spec/opcode_table.json, whatever its operands. -/

namespace Sys2Proof.Laws.RowBits

/-- Four bytes packed with byte 0 in bits 31:24, as the table packs them (R72). -/
def packed (b0 b1 b2 b3 : Byte) : Nat := b0.toNat * 2 ^ 24 + b1.toNat * 2 ^ 16 + b2.toNat * 2 ^ 8 + b3.toNat

/-- The bits of a transfer that the table numbers; none for the reset input, and none given for the status port. -/
def tableBits : Transfer → Nat
  | .req35 w => w.toNat
  | .cmd b0 b1 b2 b3 => packed b0 b1 b2 b3
  | .inbound (b0 :: b1 :: b2 :: b3 :: _) => packed b0 b1 b2 b3
  | .inbound _ => 0
  | .rx8 b => b.toNat
  | .rst => 0
  | .status => 0

/-- The row's `match` of an operation, and how many of the row's low bits its `mask` leaves free. A row with no match
has all its bits free. -/
def row : Instr → Nat × Nat
  | .setBitrate _ => (0x000000000, 32)
  | .setUpdfreq _ => (0x100000000, 32)
  | .query _ => (0x200000000, 32)
  | .automatic _ => (0x300000000, 32)
  | .setEmis _ => (0x400000000, 32)
  | .getEmis _ => (0x500000000, 32)
  | .save _ => (0x600000000, 32)
  | .illegalOp7 _ => (0x700000000, 32)
  | .cmdSetBitrate _ _ => (0xA5150000, 16)
  | .cmdSetUpdfreq _ _ => (0xA5250000, 16)
  | .cmdQuery => (0xA53501DB, 0)
  | .cmdAutomatic => (0xA53502DC, 0)
  | .cmdSetEmis _ _ => (0xA5450000, 16)
  | .cmdGetEmis => (0xA55501FB, 0)
  | .cmdSave => (0xA565010B, 0)
  | .tempFrame _ _ _ => (0x5A5A0206, 0)
  | .emisFrame _ _ => (0x5A5A0000, 16)
  | .rxPush _ => (0, 8)
  | .reset => (0, 0)
  | .statusRead => (0, 0)

/-- The bits of the operation's encoding that the row fixes are the row's `match`. -/
def Statement (i : Instr) : Prop :=
  (row i).1 ≤ tableBits (encode i) ∧ tableBits (encode i) < (row i).1 + 2 ^ (row i).2

/-- A request word lies in the range its selector fixes. -/
theorem reqWord_range (op : BitVec 3) (arg : Word) :
    op.toNat * 2 ^ 32 ≤ (reqWord op arg).toNat ∧ (reqWord op arg).toNat < op.toNat * 2 ^ 32 + 2 ^ 32 := by
  have := arg.isLt
  rw [reqWord_toNat]; omega

/-- A packed frame lies in the range its first two bytes fix. -/
theorem packed_range (b0 b1 b2 b3 : Byte) :
    packed b0 b1 0#8 0#8 ≤ packed b0 b1 b2 b3 ∧ packed b0 b1 b2 b3 < packed b0 b1 0#8 0#8 + 2 ^ 16 := by
  have := b2.isLt; have := b3.isLt
  simp only [packed, BitVec.toNat_ofNat]; omega

theorem setBitrate (arg : Word) : Statement (.setBitrate arg) := reqWord_range 0#3 arg
theorem setUpdfreq (arg : Word) : Statement (.setUpdfreq arg) := reqWord_range 1#3 arg
theorem query (arg : Word) : Statement (.query arg) := reqWord_range 2#3 arg
theorem automatic (arg : Word) : Statement (.automatic arg) := reqWord_range 3#3 arg
theorem setEmis (arg : Word) : Statement (.setEmis arg) := reqWord_range 4#3 arg
theorem getEmis (arg : Word) : Statement (.getEmis arg) := reqWord_range 5#3 arg
theorem save (arg : Word) : Statement (.save arg) := reqWord_range 6#3 arg
theorem illegalOp7 (arg : Word) : Statement (.illegalOp7 arg) := reqWord_range 7#3 arg
theorem cmdSetBitrate (p c : Byte) : Statement (.cmdSetBitrate p c) := packed_range 0xA5#8 0x15#8 p c
theorem cmdSetUpdfreq (p c : Byte) : Statement (.cmdSetUpdfreq p c) := packed_range 0xA5#8 0x25#8 p c
theorem cmdQuery : Statement .cmdQuery := by unfold Statement; decide
theorem cmdAutomatic : Statement .cmdAutomatic := by unfold Statement; decide
theorem cmdSetEmis (p c : Byte) : Statement (.cmdSetEmis p c) := packed_range 0xA5#8 0x45#8 p c
theorem cmdGetEmis : Statement .cmdGetEmis := by unfold Statement; decide
theorem cmdSave : Statement .cmdSave := by unfold Statement; decide
theorem tempFrame (samples : List Half) (ambient checksum : Half) :
    Statement (.tempFrame samples ambient checksum) := by
  exact (by decide : 0x5A5A0206 ≤ packed 0x5A#8 0x5A#8 0x02#8 0x06#8 ∧
    packed 0x5A#8 0x5A#8 0x02#8 0x06#8 < 0x5A5A0206 + 2 ^ 0)
theorem emisFrame (value checksum : Byte) : Statement (.emisFrame value checksum) :=
  packed_range 0x5A#8 0x5A#8 value checksum
theorem rxPush (data : Byte) : Statement (.rxPush data) := by
  have := data.isLt
  simp only [Statement, row, encode, tableBits]; omega
theorem reset : Statement .reset := by unfold Statement; decide
theorem statusRead : Statement .statusRead := by unfold Statement; decide

end Sys2Proof.Laws.RowBits
end

