-- ==== Sys2Proof/Laws/Step.lean ====
section
/-! SUPPORT. What the decoders answer, and what every move does: one step is one total function of the move and the
state. -/

namespace Sys2Proof.Machine

/-- What `decodeStream` answers: a frame of 768 samples, or an emissivity frame that is no temperature type, standing at
the head of the bytes (R82, R85). -/
theorem decodeStream_cases {B rest : List Byte} {i : Instr} (h : decodeStream B = .ok (i, rest)) :
    (∃ samples ambient checksum, i = .tempFrame samples ambient checksum ∧ samples.length = nSamples ∧
      B = tempBytes samples ambient checksum ++ rest) ∨
    (∃ value checksum, i = .emisFrame value checksum ∧ ¬ (value = 0x02#8 ∧ checksum = 0x06#8) ∧
      B = emisBytes value checksum ++ rest) := by
  rcases short_or_cons B with hs | ⟨b0, b1, b2, b3, tl, rfl⟩
  · exfalso
    match B, hs with
    | [], _ => simp [decodeStream] at h
    | [_], _ => simp [decodeStream] at h
    | [_, _], _ => simp [decodeStream] at h
    | [_, _, _], _ => simp [decodeStream] at h
  · rw [decodeStream] at h
    split at h
    · cases h
    rename_i hh
    obtain ⟨rfl, rfl⟩ := not_not.1 hh
    split at h
    · rename_i ht
      obtain ⟨rfl, rfl⟩ := (le16_eq_tempType _ _).1 ht
      split at h
      · cases h
      rename_i hl
      have hlen : (words (tl.take (frameSize - 4))).length = 770 := by
        simp [frameSize] at *; omega
      have hun : unwords (words (tl.take (frameSize - 4))) = tl.take (frameSize - 4) :=
        unwords_words _ (by simp [frameSize] at *; omega)
      rw [tempFields] at h
      generalize hws : words (tl.take (frameSize - 4)) = ws at *
      have hd : (ws.drop nSamples).length = 2 := by simp [nSamples, hlen]
      match hdr : ws.drop nSamples, hd with
      | [ambient, checksum], _ =>
        simp only [hdr, Except.ok.injEq, Prod.mk.injEq] at h
        obtain ⟨rfl, rfl⟩ := h
        refine .inl ⟨ws.take nSamples, ambient, checksum, rfl, by simp [nSamples, hlen], ?_⟩
        have : ws.take nSamples ++ [ambient, checksum] = ws := by rw [← hdr, List.take_append_drop]
        rw [tempBytes, this, hun, List.append_assoc, List.take_append_drop]; rfl
    · rename_i ht
      cases h
      exact .inr ⟨b2, b3, rfl, fun hc => ht ((le16_eq_tempType _ _).2 hc), rfl⟩

/-- What `decodeCmd` answers: the row whose frame the four bytes are (R73). -/
theorem decodeCmd_encode {b0 b1 b2 b3 : Byte} {i : Instr} (h : decodeCmd b0 b1 b2 b3 = .ok i) :
    encode i = .cmd b0 b1 b2 b3 := by
  unfold decodeCmd at h
  split_ifs at h <;> first | (cases h; done) | (cases h; simp_all [encode])

/-- The meaning of a CMD row is the transfer of its frame (R33). -/
theorem exec_of_encode_cmd {b0 b1 b2 b3 : Byte} {i : Instr} (h : encode i = .cmd b0 b1 b2 b3) (s : State) :
    exec i s = takeFrame b0 b1 b2 b3 s := by
  cases i <;> simp only [encode, reduceCtorEq, Transfer.cmd.injEq] at h <;> obtain ⟨rfl, rfl, rfl, rfl⟩ := h <;> rfl

/-- What decodes from a request word is a request row (R70). -/
theorem isRequest_decodeReq (w : BitVec 35) : isRequest (decodeReq w) = true := by
  unfold decodeReq; dsimp only; split <;> rfl

/-- The effect of each move on the state it is made in. -/
def turnEffect (t : Turn) (s : State) : State :=
  match t with
  | .request =>
    match s.host.reqIn with
    | [] => s
    | w :: ws =>
      if s.rsp = .empty then
        (s.setHost { s.host with reqIn := ws }).setRsp (requestResponse s.cfg.freqCode (decodeReq w))
      else s
  | .takeResponse => takeResponse s
  | .receive =>
    match s.host.rxIn with
    | [] => s
    | b :: bs =>
      if quiescent s.inb.buf then
        (s.setHost { s.host with rxIn := bs }).setInb (pushByte s.cfg.cap s.inb b)
      else s
  | .withdrawByte => withdrawByte s
  | .scan =>
    match scanInbound s.cfg s.inb with
    | .ok n => s.setInb n
    | .error _ => s
  | .takeEvent => takeEvent s
  | .readStatus => readStatus s
  | .reset => resetBlock s

/-- A SCAN step is its effect. -/
theorem scan_effect (s : State) : scan s = .next (turnEffect .scan s) := by
  obtain ⟨n, h, hs⟩ := scan_next s
  rw [hs, turnEffect, h]

/-- Every move made answers the next state that `turnEffect` gives. -/
theorem fetch_effect (t : Turn) (s : State) :
    (∃ i s', fetch t s = .instr i s' ∧ exec i s' = .next (turnEffect t s)) ∨
    fetch t s = .other (.next (turnEffect t s)) := by
  cases t with
  | request =>
    simp only [fetch, fetchRequest, turnEffect]
    cases hr : s.host.reqIn with
    | nil => exact .inr rfl
    | cons w ws =>
      refine .inl ⟨_, _, rfl, ?_⟩
      rw [exec_request (isRequest_decodeReq w)]
      by_cases he : s.rsp = .empty <;> simp [encoderStep, reqReady, he, respond]
  | takeResponse =>
    simp only [fetch, fetchResponse, turnEffect]
    cases hr : s.rsp with
    | empty => exact .inr rfl
    | error c n => exact .inr rfl
    | frame b0 b1 b2 b3 =>
      cases hd : decodeCmd b0 b1 b2 b3 with
      | error e => exact .inr (by simp [hd])
      | ok i =>
        refine .inl ⟨i, s, by simp [hd], ?_⟩
        rw [exec_of_encode_cmd (decodeCmd_encode hd), takeFrame, if_pos hr]
  | receive =>
    simp only [fetch, fetchByte, turnEffect]
    cases hr : s.host.rxIn with
    | nil => exact .inr rfl
    | cons b bs =>
      refine .inl ⟨_, _, rfl, ?_⟩
      by_cases hq : quiescent s.inb.buf = true <;> simp [exec, execRxPush, rxReady, hq]
  | withdrawByte => exact .inr rfl
  | scan =>
    simp only [fetch, fetchScan]
    cases hd : decodeStream s.inb.buf with
    | error e => exact .inr (by simp [scan_effect])
    | ok r =>
      refine .inl ⟨r.1, s, by simp, ?_⟩
      have hp : exec r.1 s = scan s := by
        rcases decodeStream_cases (B := s.inb.buf) (i := r.1) (rest := r.2) hd with
          ⟨a, b, c, hi, -, hb⟩ | ⟨a, b, hi, -, hb⟩ <;> rw [hi]
        · rcases scanFrame_cases (tempBytes a b c) s with ⟨-, h⟩ | ⟨h, -⟩
          · exact h
          · exact absurd (hb ▸ List.prefix_append _ _) h
        · rcases scanFrame_cases (emisBytes a b) s with ⟨-, h⟩ | ⟨h, -⟩
          · exact h
          · exact absurd (hb ▸ List.prefix_append _ _) h
      rw [hp, scan_effect]
  | takeEvent => exact .inr rfl
  | readStatus => exact .inl ⟨_, _, rfl, rfl⟩
  | reset => exact .inl ⟨_, _, rfl, rfl⟩

/-- Everything a step can do when a move is next: its effect on the state with the move made. -/
theorem step_some {s : State} {t : Turn} (h : nextTurn s = some t) : step s = .next (turnEffect t (popTurn s)) := by
  simp only [step, h]
  rcases fetch_effect t (popTurn s) with ⟨i, s', hf, he⟩ | hf
  · simp [hf, he]
  · simp [hf]

/-- With no move to make nothing changes (R217). -/
theorem step_none {s : State} (h : nextTurn s = none) : step s = .next s := by simp [step, h]

/-- The effect of a SCAN step, case by case (R152): none, or that of an advancing decision. -/
theorem turnEffect_scan_cases (s : State) :
    turnEffect .scan s = s ∨
    ∃ d ev, decision s.inb.buf = .ok d ∧ eventOf d s.inb.buf = .ok ev ∧ d.adv ≠ 0 ∧ d.adv ≤ s.inb.buf.length ∧
      (ev.isSome → s.inb.evq.length < s.cfg.evDepth) ∧ turnEffect .scan s = s.setInb (scanned s.cfg d ev s.inb) := by
  obtain ⟨d, ev, hd, he, ⟨-, h⟩ | ⟨-, -, -, h⟩ | ⟨ha, hq, h⟩⟩ := scanInbound_cases s.cfg s.inb
  · exact .inl (by simp [turnEffect, h])
  · exact .inl (by simp [turnEffect, h])
  · exact .inr ⟨d, ev, hd, he, ha, adv_le hd, hq, by simp [turnEffect, h]⟩

end Sys2Proof.Machine
end

