-- ==== Sys2Proof/Tests/Slice0.lean ====
section
/-! SUPPORT. The model's own tests: well-formedness, decoding of words written out from spec/30_encoding.md, one step at a
time on the vectors of spec/95_test_vectors.md, and a witness for the hypotheses of each statement. -/

namespace Sys2Proof.Tests

open Sys2Proof.Machine

/-! ### Helpers -/

/-- After RESET, with the bytes `B` received and none consumed. -/
def withBytes (B : List Byte) : State :=
  State.reset.setInb { Inbound.reset with buf := B, stream := B, inCount := B.length }

/-- After RESET, with a response held. -/
def withRsp (r : Response) : State := State.reset.setRsp r

/-- The state with the moves `ts` scheduled. -/
def scheduled (ts : List Turn) (s : State) : State := s.setHost { s.host with sched := ts }

/-- The state with the event queue full, at depth 1. -/
def withFullQueue (s : State) : State := s.setInb { s.inb with evq := [.emis 0x00#8] }

/-- The state with OVF set. -/
def withOvf (s : State) : State := s.setInb { s.inb with ovf := true }

/-- The state with another CAP. -/
def withCap (cap : Nat) (s : State) : State := { s with cfg := { s.cfg with cap := cap } }

/-- The next state, where the outcome is one. -/
def nextOf : Host.Outcome State Fault Refusal → Option State
  | .next t => some t
  | .fault _ => none
  | .refused _ => none

/-- The decision, where the decision function gives one. -/
def decided (B : List Byte) : Option Decision := (decision B).toOption

/-- RSP in the next state. -/
def rspAfter (o : Host.Outcome State Fault Refusal) : Option Response := (nextOf o).map State.rsp

/-- The buffer and the event queue in the next state. -/
def scanAfter (o : Host.Outcome State Fault Refusal) : Option (List Byte × List Event) :=
  (nextOf o).map fun t => (t.inb.buf, t.inb.evq)

/-- Fixture TF0 of spec/95_test_vectors.md §0. -/
def tf0 : List Byte := [0x5A#8, 0x5A#8, 0x02#8, 0x06#8] ++ List.replicate 1538 0x00#8 ++ [0x5C#8, 0x60#8]

/-- Fixture TF1: 4: C4 09; 1538: FF FF; 1540: 2E 09; 1542: 4D 73. -/
def tf1 : List Byte :=
  [0x5A#8, 0x5A#8, 0x02#8, 0x06#8, 0xC4#8, 0x09#8] ++ List.replicate 1532 0x00#8 ++
    [0xFF#8, 0xFF#8, 0x2E#8, 0x09#8, 0x4D#8, 0x73#8]

/-- Fixture TF1x: TF1 with byte 4 changed to C5. -/
def tf1x : List Byte := tf1.set 4 0xC5#8

/-! ### Well-formedness: a term that each check refuses -/

theorem test_temp_frame_of_767_samples_refused :
    ¬ (Instr.tempFrame (List.replicate 767 0#16) 0#16 0#16).WellFormed := by decide +kernel
theorem test_temp_frame_of_769_samples_refused :
    ¬ (Instr.tempFrame (List.replicate 769 0#16) 0#16 0#16).WellFormed := by decide +kernel
theorem test_temp_frame_of_768_samples_well_formed :
    (Instr.tempFrame (List.replicate 768 0#16) 0#16 0#16).WellFormed := by decide +kernel
theorem test_emis_frame_of_temp_type_refused : ¬ (Instr.emisFrame 0x02#8 0x06#8).WellFormed := by decide
theorem test_emis_frame_02_07_well_formed : (Instr.emisFrame 0x02#8 0x07#8).WellFormed := by decide

/-! ### Decoding, on words written out from the spec's encodings (R70, R72 to R78, R83, R84) -/

theorem test_decode_set_bitrate : decodeTableWord 40 0x00001C200 = some (.setBitrate 115200#32) := by decide
theorem test_decode_set_updfreq : decodeTableWord 40 0x100000008 = some (.setUpdfreq 8#32) := by decide
theorem test_decode_query : decodeTableWord 40 0x212345678 = some (.query 0x12345678#32) := by decide
theorem test_decode_automatic : decodeTableWord 40 0x300000000 = some (.automatic 0#32) := by decide
theorem test_decode_set_emis : decodeTableWord 40 0x4FFFFFF9C = some (.setEmis 0xFFFFFF9C#32) := by decide
theorem test_decode_get_emis : decodeTableWord 40 0x500000001 = some (.getEmis 1#32) := by decide
theorem test_decode_save : decodeTableWord 40 0x680000000 = some (.save 0x80000000#32) := by decide
theorem test_decode_selector_7 : decodeTableWord 40 0x7FFFFFFFF = some (.illegalOp7 0xFFFFFFFF#32) := by decide
theorem test_decode_cmd_set_bitrate : decodeTableWord 32 0xA51503BD = some (.cmdSetBitrate 0x03#8 0xBD#8) := by decide
theorem test_decode_cmd_set_updfreq : decodeTableWord 32 0xA52504CE = some (.cmdSetUpdfreq 0x04#8 0xCE#8) := by decide
theorem test_decode_cmd_query : decodeTableWord 32 0xA53501DB = some .cmdQuery := by decide
theorem test_decode_cmd_automatic : decodeTableWord 32 0xA53502DC = some .cmdAutomatic := by decide
theorem test_decode_cmd_set_emis : decodeTableWord 32 0xA5455F49 = some (.cmdSetEmis 0x5F#8 0x49#8) := by decide
theorem test_decode_cmd_get_emis : decodeTableWord 32 0xA55501FB = some .cmdGetEmis := by decide
theorem test_decode_cmd_save : decodeTableWord 32 0xA565010B = some .cmdSave := by decide
theorem test_decode_emis_frame : decodeTableWord 32 0x5A5A5F13 = some (.emisFrame 0x5F#8 0x13#8) := by decide
theorem test_decode_rx_push : decodeTableWord 8 0x13 = some (.rxPush 0x13#8) := by decide
theorem test_decode_reset : decodeTableWord 0 0 = some .reset := by decide
theorem test_decode_status_read : decodeTableWord 32 0x000603E8 = some .statusRead := by decide
/-- Sample 0 is 2500 (C4 09), sample 767 is FFFF, the ambient is 2350 (2E 09), the checksum word is 4D 73 (TF1). -/
theorem test_decode_temp_frame :
    (decodeStream (tf1 ++ [0x11#8])).toOption =
      some (.tempFrame (2500#16 :: (List.replicate 766 0#16 ++ [0xFFFF#16])) 2350#16 0x734D#16, [0x11#8]) := by
  decide +kernel
/-- The type marker is bytes 02 06 in that order; 06 02 is an emissivity candidate (V18). -/
theorem test_decode_type_byte_order : decodeTableWord 32 0x5A5A0602 = some (.emisFrame 0x06#8 0x02#8) := by decide
theorem test_decode_no_header : decodeTableWord 32 0x5A000000 = none := by decide
theorem test_decode_unknown_opcode : decodeTableWord 32 0xA57501FB = none := by decide
theorem test_decode_wrong_fixed_byte : decodeTableWord 32 0xA53503DC = none := by decide

/-! ### The encoder, on the vectors of 95_test_vectors.md §2.1 -/

theorem test_set_bitrate_460800 : rspAfter (exec (.setBitrate 460800#32) State.reset) =
    some (.frame 0xA5#8 0x15#8 0x03#8 0xBD#8) := by decide
theorem test_set_bitrate_9601 : rspAfter (exec (.setBitrate 9601#32) State.reset) =
    some (.error 0x01#8 0x00#8) := by decide
theorem test_set_updfreq_8_hz : rspAfter (exec (.setUpdfreq 16#32) State.reset) =
    some (.frame 0xA5#8 0x25#8 0x04#8 0xCE#8) := by decide
theorem test_set_updfreq_1_5_hz : rspAfter (exec (.setUpdfreq 3#32) State.reset) =
    some (.error 0x01#8 0x01#8) := by decide
theorem test_query_ignores_arg : rspAfter (exec (.query 0x12345678#32) State.reset) =
    some (.frame 0xA5#8 0x35#8 0x01#8 0xDB#8) := by decide
theorem test_automatic : rspAfter (exec (.automatic 0#32) State.reset) =
    some (.frame 0xA5#8 0x35#8 0x02#8 0xDC#8) := by decide
/-- The least i32 clamps to 0. -/
theorem test_set_emis_least : rspAfter (exec (.setEmis 0x80000000#32) State.reset) =
    some (.frame 0xA5#8 0x45#8 0x00#8 0xEA#8) := by decide
/-- 0.22: the checksum wraps to 0. -/
theorem test_set_emis_22 : rspAfter (exec (.setEmis 22#32) State.reset) =
    some (.frame 0xA5#8 0x45#8 0x16#8 0x00#8) := by decide
theorem test_get_emis : rspAfter (exec (.getEmis 0#32) State.reset) =
    some (.frame 0xA5#8 0x55#8 0x01#8 0xFB#8) := by decide
/-- The sum 0x10B wraps. -/
theorem test_save_wraps : rspAfter (exec (.save 0#32) State.reset) =
    some (.frame 0xA5#8 0x65#8 0x01#8 0x0B#8) := by decide
theorem test_selector_7 : rspAfter (exec (.illegalOp7 0xFFFFFFFF#32) State.reset) =
    some (.error 0x04#8 0x07#8) := by decide
/-- The host's conversion (§2.1): 0.295 rounds half up to 30; −0.1 clamps to 0. -/
theorem test_emis_hundredths_half : emisHundredths (295 / 1000) = 30 ∧ emisHundredths (-1 / 10) = 0 := by decide +kernel

/-! ### The response port -/

theorem test_cmd_set_bitrate_taken :
    (nextOf (exec (.cmdSetBitrate 0x02#8 0xBC#8) (withRsp (.frame 0xA5#8 0x15#8 0x02#8 0xBC#8)))).map
      (fun t => (t.rsp, t.host.rspOut)) = some (.empty, [.frame 0xA5#8 0x15#8 0x02#8 0xBC#8]) := by decide
theorem test_cmd_set_updfreq_taken :
    rspAfter (exec (.cmdSetUpdfreq 0x04#8 0xCE#8) (withRsp (.frame 0xA5#8 0x25#8 0x04#8 0xCE#8))) = some .empty := by
  decide
theorem test_cmd_query_taken :
    rspAfter (exec .cmdQuery (withRsp (.frame 0xA5#8 0x35#8 0x01#8 0xDB#8))) = some .empty := by decide
theorem test_cmd_automatic_taken :
    rspAfter (exec .cmdAutomatic (withRsp (.frame 0xA5#8 0x35#8 0x02#8 0xDC#8))) = some .empty := by decide
theorem test_cmd_set_emis_taken :
    rspAfter (exec (.cmdSetEmis 0x5F#8 0x49#8) (withRsp (.frame 0xA5#8 0x45#8 0x5F#8 0x49#8))) = some .empty := by
  decide
theorem test_cmd_get_emis_taken :
    rspAfter (exec .cmdGetEmis (withRsp (.frame 0xA5#8 0x55#8 0x01#8 0xFB#8))) = some .empty := by decide
theorem test_cmd_save_taken :
    rspAfter (exec .cmdSave (withRsp (.frame 0xA5#8 0x65#8 0x01#8 0x0B#8))) = some .empty := by decide

/-! ### Decisions (§2.3; the numbers are the spec's) -/

theorem test_V2 : decided [0x5A#8, 0x5A#8, 0x5F#8] = some .short := by decide
theorem test_V3 : scanAfter (scan (withBytes [0x00#8, 0x5A#8, 0x5A#8, 0x5A#8])) =
    some ([0x5A#8, 0x5A#8, 0x5A#8], []) := by decide
theorem test_V4 : scanAfter (scan (withBytes [0x5A#8, 0x00#8, 0x5A#8, 0x5A#8])) =
    some ([0x00#8, 0x5A#8, 0x5A#8], []) := by decide
theorem test_V5 : decided [0x5A#8, 0x5A#8, 0x02#8, 0x06#8] = some .tempWait := by decide
theorem test_V6 : decided (tf0.take 1543) = some .tempWait := by decide +kernel
theorem test_V8 : scanAfter (exec (.tempFrame (List.replicate 768 0#16) 0#16 0x605C#16) (withBytes (tf0 ++ [0x5A#8]))) =
    some ([0x5A#8], [.temp (List.replicate 768 0) 0]) := by decide +kernel
theorem test_V9 : scanAfter (exec (.tempFrame (2501#16 :: (List.replicate 766 0#16 ++ [0xFFFF#16])) 2350#16 0x734D#16)
    (withBytes tf1x)) = some (tf1x.drop 1, []) := by decide +kernel
theorem test_V11 : scanAfter (exec (.emisFrame 0x5F#8 0x14#8) (withBytes [0x5A#8, 0x5A#8, 0x5F#8, 0x14#8])) =
    some ([0x5A#8, 0x5F#8, 0x14#8], []) := by decide
theorem test_V12 : scanAfter (exec (.emisFrame 0xC8#8 0x7C#8) (withBytes [0x5A#8, 0x5A#8, 0xC8#8, 0x7C#8])) =
    some ([], [.emis 0xC8#8]) := by decide
theorem test_V13 : decided [0x5A#8, 0x5A#8, 0x4C#8, 0x00#8] = some .emisAccept := by decide
theorem test_V14 : decided [0x5A#8, 0x5A#8, 0x5A#8, 0x5A#8] = some .emisReject := by decide
theorem test_V16 : decided [0x5A#8, 0x5A#8, 0x02#8, 0x07#8] = some .emisReject := by decide
theorem test_V17 : decided [0x5A#8, 0x5A#8, 0x02#8, 0xB6#8] = some .emisAccept := by decide
theorem test_V18 : decided [0x5A#8, 0x5A#8, 0x06#8, 0x02#8] = some .emisReject := by decide
theorem test_V19 : decided [0x5A#8, 0x5A#8, 0x52#8, 0x06#8] = some .emisAccept := by decide
theorem test_V20 : scanAll [0x5A#8, 0x5A#8, 0x00#8, 0xB4#8, 0x5A#8, 0x5A#8, 0x64#8, 0x18#8] =
    ([.emis 0x00#8, .emis 0x64#8], []) := by decide

/-! ### Checksums and decoders (§2.4) -/

theorem test_tsum_fixtures : tempSum tf0 = 0x605C#16 ∧ tempSum tf1 = 0x734D#16 ∧ tempSum tf1x = 0x734E#16 := by
  decide +kernel
/-- TF1: samples[0] = 2500, samples[767] = −1, ambient 2350. -/
theorem test_decode_tf1 : (decodeTemp tf1).toOption =
    some (.temp (2500 :: (List.replicate 766 0 ++ [-1])) 2350) := by decide +kernel
theorem test_s16_ends : s16 (le16 0x00#8 0x80#8) = -32768 ∧ s16 (le16 0xFF#8 0x7F#8) = 32767 := by decide

/-! ### The receive port, RESET and STATUS (§2.2 and R230) -/

theorem test_push_appends : (nextOf (exec (.rxPush 0x13#8) (withBytes [0x5A#8, 0x5A#8, 0x5F#8]))).map
    (fun t => (t.inb.buf, t.inb.inCount, t.inb.ovf)) = some ([0x5A#8, 0x5A#8, 0x5F#8, 0x13#8], 4, false) := by decide
/-- The defensive branch: with CAP = LEN = 3 the byte is dropped and OVF set. -/
theorem test_push_overflows : (nextOf (exec (.rxPush 0x13#8)
    (withCap 3 (withBytes [0x5A#8, 0x5A#8, 0x5F#8])))).map
    (fun t => (t.inb.buf, t.inb.inCount, t.inb.ovf)) = some ([0x5A#8, 0x5A#8, 0x5F#8], 3, true) := by decide
/-- R230's example: from B = 5A 5A 02 06 and OVF = 1. -/
theorem test_reset_status : (nextOf (exec .reset
    (withOvf (withBytes [0x5A#8, 0x5A#8, 0x02#8, 0x06#8])))).map
    (fun t => (t.inb.buf, t.inb.ovf, statusWord t)) = some ([], false, 0x00020000#32) := by decide
/-- A 1000-byte temperature candidate waits. -/
theorem test_status_waiting : (nextOf (exec .statusRead (withBytes (tf1.take 1000)))).map
    (fun t => t.host.statusOut) = some [0x000603E8#32] := by decide +kernel
/-- P6: EMIS_ACCEPT held, EVQ full, LEN 4. -/
theorem test_status_held : statusWord (withFullQueue (withBytes [0x5A#8, 0x5A#8, 0x64#8, 0x18#8])) = 0x00080004#32 := by
  decide

/-! ### One step from a word put where the step fetches -/

theorem test_step_runs_query : rspAfter (step (State.reset.withFetchWord 40 0x200000000)) =
    some (.frame 0xA5#8 0x35#8 0x01#8 0xDB#8) := by decide
theorem test_step_runs_push : (nextOf (step (State.reset.withFetchWord 8 0x13))).map (fun t => (t.inb.buf, t.host.rxIn)) =
    some ([0x13#8], []) := by decide
/-- The all-zero temperature candidate has checksum word 0, not 605C: TEMP_REJECT consumes one byte. -/
theorem test_step_runs_temp_frame :
    (nextOf (step (State.reset.withFetchWord 32 0x5A5A0206))).map (fun t => (t.inb.buf.length, t.inb.posCount)) =
      some (1543, 1) := by decide +kernel

/-! ### Witnesses: a concrete state and operands that meet the hypotheses of each statement, clause by clause -/

/-- The state that presents the requests `ws` and the bytes `bs`. -/
def presenting (ws : List (BitVec 35)) (bs : List Byte) (s : State) : State :=
  s.setHost { s.host with reqIn := ws, rxIn := bs }

/-- A response held in the witnesses. -/
def queryFrame : Response := .frame 0xA5#8 0x35#8 0x01#8 0xDB#8

theorem witness_SetBitrateResponse : State.reset.rsp = .empty ∧
    (9601#32 ≠ 9600#32 ∧ 9601#32 ≠ 115200#32 ∧ 9601#32 ≠ 460800#32) := by decide
theorem witness_SetUpdfreqResponse : State.reset.rsp = .empty ∧
    ((1#32 = 1#32 ∧ 0x00#8 = State.reset.cfg.freqCode.half) ∧ (2#32 = 2#32 ∧ 0x01#8 = State.reset.cfg.freqCode.one) ∧
      (4#32 = 4#32 ∧ 0x02#8 = State.reset.cfg.freqCode.two) ∧ (8#32 = 8#32 ∧ 0x03#8 = State.reset.cfg.freqCode.four) ∧
      (16#32 = 16#32 ∧ 0x04#8 = State.reset.cfg.freqCode.eight)) ∧
    0#32 ∉ [1#32, 2#32, 4#32, 8#32, 16#32] ∧ 32#32 ∉ [1#32, 2#32, 4#32, 8#32, 16#32] ∧
    State.reset.cfg.freqCode = ⟨0x00#8, 0x01#8, 0x02#8, 0x03#8, 0x04#8⟩ := by decide
theorem witness_FixedCommandResponses : State.reset.rsp = .empty := by decide
theorem witness_SetEmisResponse : (withBytes [0x5A#8]).rsp = .empty := by decide
theorem witness_IllegalSelectorResponse : (withOvf State.reset).rsp = .empty := by decide
theorem witness_RequestWaitsWhileResponseHeld :
    isRequest (.query 0#32) = true ∧ (withRsp queryFrame).rsp ≠ .empty ∧
      isRequest (.illegalOp7 0#32) = true ∧ (withRsp (.error 0x04#8 0x07#8)).rsp ≠ .empty := by decide
theorem witness_EncoderIsPure : isRequest (.setUpdfreq 16#32) = true ∧ State.reset.rsp = .empty ∧
    (withOvf (withBytes [0x5A#8])).rsp = .empty ∧
    State.reset.cfg.freqCode = (withOvf (withBytes [0x5A#8])).cfg.freqCode := by decide
theorem witness_FrameOrErrorByRequest : isRequest (.setBitrate 9600#32) = true ∧ State.reset.rsp = .empty ∧
    (∃ t, exec (.setBitrate 9600#32) State.reset = .next t ∧ t.rsp = .frame 0xA5#8 0x15#8 0x01#8 0xBB#8) ∧
    (∃ t, exec (.setBitrate 9601#32) State.reset = .next t ∧ t.rsp = .error 0x01#8 0x00#8) :=
  ⟨by decide, by decide, ⟨_, rfl, by decide⟩, ⟨_, rfl, by decide⟩⟩
/-- SET_EMIS(−1) and SET_EMIS(0) share the frame A5 45 00 EA. -/
theorem witness_EncoderInjective : isRequest (.setEmis 0xFFFFFFFF#32) = true ∧ isRequest (.setEmis 0#32) = true ∧
    State.reset.rsp = .empty ∧
    [State.reset.cfg.freqCode.half, State.reset.cfg.freqCode.one, State.reset.cfg.freqCode.two,
      State.reset.cfg.freqCode.four, State.reset.cfg.freqCode.eight].Nodup ∧
    (∃ t u, exec (.setEmis 0xFFFFFFFF#32) State.reset = .next t ∧ exec (.setEmis 0#32) State.reset = .next u ∧
      t.rsp = .frame 0xA5#8 0x45#8 0x00#8 0xEA#8 ∧ u.rsp = .frame 0xA5#8 0x45#8 0x00#8 0xEA#8) :=
  ⟨by decide, by decide, by decide, by decide, ⟨_, _, rfl, rfl, by decide, by decide⟩⟩
theorem witness_EmissivityClampLaw : (0xFFFFFFFF#32).toInt < 0 ∧ (0x80000000#32).toInt < 0 ∧ 100 < (101#32).toInt ∧
    100 < (0x7FFFFFFF#32).toInt ∧ ((-1 / 100 : ℚ) < 0) ∧ ((1 : ℚ) < 101 / 100) := by
  refine ⟨by decide, by decide, by decide, by decide, by norm_num, by norm_num⟩
theorem witness_CommandFrameTransfers :
    (withRsp (.frame 0xA5#8 0x15#8 0x01#8 0xBB#8)).rsp = .frame 0xA5#8 0x15#8 0x01#8 0xBB#8 ∧
    (withRsp (.frame 0xA5#8 0x25#8 0x04#8 0xCE#8)).rsp = .frame 0xA5#8 0x25#8 0x04#8 0xCE#8 ∧
    (withRsp queryFrame).rsp = .frame 0xA5#8 0x35#8 0x01#8 0xDB#8 ∧
    (withRsp (.frame 0xA5#8 0x35#8 0x02#8 0xDC#8)).rsp = .frame 0xA5#8 0x35#8 0x02#8 0xDC#8 ∧
    (withRsp (.frame 0xA5#8 0x45#8 0x16#8 0x00#8)).rsp = .frame 0xA5#8 0x45#8 0x16#8 0x00#8 ∧
    (withRsp (.frame 0xA5#8 0x55#8 0x01#8 0xFB#8)).rsp = .frame 0xA5#8 0x55#8 0x01#8 0xFB#8 ∧
    (withRsp (.frame 0xA5#8 0x65#8 0x01#8 0x0B#8)).rsp = .frame 0xA5#8 0x65#8 0x01#8 0x0B#8 := by decide
theorem witness_CommandFrameNotPresented : encode .cmdSave = .cmd 0xA5#8 0x65#8 0x01#8 0x0B#8 ∧
    (withRsp queryFrame).rsp ≠ .frame 0xA5#8 0x65#8 0x01#8 0x0B#8 := by decide
theorem witness_EncodedFrameIsHandedOver : isRequest (.save 7#32) = true ∧ State.reset.rsp = .empty ∧
    ∃ t, exec (.save 7#32) State.reset = .next t ∧ t.rsp = .frame 0xA5#8 0x65#8 0x01#8 0x0B#8 :=
  ⟨by decide, by decide, _, rfl, by decide⟩
theorem witness_ErrorResponseTaken :
    nextTurn (scheduled [.takeResponse] (withRsp (.error 0x04#8 0x07#8))) = some .takeResponse ∧
    (scheduled [.takeResponse] (withRsp (.error 0x04#8 0x07#8))).rsp = .error 0x04#8 0x07#8 ∧
    nextTurn (scheduled [.takeResponse] State.reset) = some .takeResponse ∧
    (scheduled [.takeResponse] State.reset).rsp = .empty := by decide
/-- Accepted at 0 and at 1543 bytes; LEN = CAP at CAP 3; not accepted with four bytes of noise. -/
theorem witness_PushByte :
    (quiescent State.reset.inb.buf = true ∧ State.reset.inb.buf.length < State.reset.cfg.cap) ∧
    (quiescent (withBytes (tf0.take 1543)).inb.buf = true ∧
      (withBytes (tf0.take 1543)).inb.buf.length < (withBytes (tf0.take 1543)).cfg.cap) ∧
    (quiescent (withCap 3 (withBytes [0x5A#8, 0x5A#8, 0x5F#8])).inb.buf = true ∧
      (withCap 3 (withBytes [0x5A#8, 0x5A#8, 0x5F#8])).cfg.cap ≤
        (withCap 3 (withBytes [0x5A#8, 0x5A#8, 0x5F#8])).inb.buf.length) ∧
    quiescent (withBytes [0x00#8, 0x00#8, 0x00#8, 0x00#8]).inb.buf = false := by decide +kernel
theorem witness_PushNeverOverflows : 1544 ≤ (withCap 1544 (withBytes (tf0.take 1543))).cfg.cap ∧
    quiescent (withCap 1544 (withBytes (tf0.take 1543))).inb.buf = true ∧
    ∃ t, scan (withBytes [0x00#8, 0x5A#8, 0x5A#8, 0x5A#8]) = .next t :=
  ⟨by decide +kernel, by decide +kernel, _, rfl⟩
theorem witness_ResetStateIsClean : Config.default.Ok ∧ (Config.mk 65535 1 FreqCode.default true).Ok := by decide
/-- LEN = CAP, and an empty buffer. -/
theorem witness_StatusWordLayout :
    ((withBytes (List.replicate 2048 0x00#8)).cfg.Ok ∧
      (withBytes (List.replicate 2048 0x00#8)).inb.buf.length ≤ (withBytes (List.replicate 2048 0x00#8)).cfg.cap) ∧
    (State.reset.cfg.Ok ∧ State.reset.inb.buf.length ≤ State.reset.cfg.cap) := by decide +kernel
theorem witness_TempHead : TempHead tf0 ∧ TempHead (tf0.take 1543) ∧ TempHead tf1x := by
  unfold TempHead; decide +kernel
/-- A temperature candidate of zeros with the checksum bytes `lo`, `hi`; TF0 is the one with 5C 60. -/
def zeroFrame (lo hi : Byte) : List Byte :=
  [0x5A#8, 0x5A#8, 0x02#8, 0x06#8] ++ (List.replicate 1538 0x00#8 ++ [lo, hi])

/-- Its words from the third to the ambient are 0. -/
theorem wordAt_zeroFrame (lo hi : Byte) (w : Nat) (h : w < 769) : wordAt (zeroFrame lo hi) (2 * (w + 2)) = some 0#16 := by
  have h4 : 2 * (w + 2) = 2 * w + 4 := by omega
  obtain ⟨m, hm⟩ : ∃ m, 1538 - 2 * w = m + 2 := ⟨1536 - 2 * w, by omega⟩
  have hd : (List.replicate 1538 0x00#8 ++ [lo, hi]).drop (2 * w) = 0x00#8 :: 0x00#8 :: (List.replicate m 0x00#8 ++ [lo, hi]) := by
    rw [List.drop_append_of_le_length (by rw [List.length_replicate]; omega), List.drop_replicate, hm]; rfl
  have hz : (zeroFrame lo hi).drop (2 * (w + 2)) = (List.replicate 1538 0x00#8 ++ [lo, hi]).drop (2 * w) := by
    rw [h4]; rfl
  rw [wordAt, hz, hd]; rfl

theorem wordSum_zeroFrame (lo hi : Byte) : wordSum (zeroFrame lo hi) = 0x605C := by
  have h : (List.range 771).map (fun w => ((wordAt (zeroFrame lo hi) (2 * w)).map BitVec.toNat).getD 0) =
      (List.range 771).map fun w => if w = 0 then 0x5A5A else if w = 1 then 0x0602 else 0 := by
    apply List.map_congr_left
    intro w hw
    match w with
    | 0 => rfl
    | 1 => rfl
    | w + 2 =>
      rw [List.mem_range] at hw
      rw [wordAt_zeroFrame lo hi w (by omega)]; rfl
  rw [wordSum, h]; decide +kernel

/-- A clause each: 3 bytes; no header; 1543 and 1544 bytes; a good and a bad checksum; EMIS types next to the
temperature type, with a good and a bad checksum. -/
theorem witness_DecisionByTests :
    [0x5A#8, 0x5A#8, 0x5F#8].length < 4 ∧
    (4 ≤ [0x5A#8, 0x00#8, 0x5A#8, 0x5A#8].length ∧
      ¬ ([0x5A#8, 0x00#8, 0x5A#8, 0x5A#8][0]? = some 0x5A#8 ∧ [0x5A#8, 0x00#8, 0x5A#8, 0x5A#8][1]? = some 0x5A#8)) ∧
    (tf0.take 1543).length < 1544 ∧
    (1544 ≤ (zeroFrame 0x5C#8 0x60#8).length ∧ wordAt (zeroFrame 0x5C#8 0x60#8) 1542 = some 0x605C#16 ∧
      wordSum (zeroFrame 0x5C#8 0x60#8) % 65536 = (0x605C#16).toNat) ∧
    (1544 ≤ (zeroFrame 0x5D#8 0x60#8).length ∧ wordAt (zeroFrame 0x5D#8 0x60#8) 1542 = some 0x605D#16 ∧
      wordSum (zeroFrame 0x5D#8 0x60#8) % 65536 ≠ (0x605D#16).toNat) ∧
    (¬ (0x02#8 = 0x02#8 ∧ 0xB6#8 = 0x06#8) ∧ (0xB6#8).toNat = (0xB4 + (0x02#8).toNat) % 256) ∧
    (¬ (0x02#8 = 0x02#8 ∧ 0x07#8 = 0x06#8) ∧ (0x07#8).toNat ≠ (0xB4 + (0x02#8).toNat) % 256) := by
  rw [wordSum_zeroFrame, wordSum_zeroFrame]; decide +kernel
theorem witness_QuiescentExactlyWhenNoStep :
    (State.reset.inb.buf = [] ∧ quiescent [] = true) ∧
    ((withBytes (tf0.take 1543)).inb.buf = tf0.take 1543 ∧ quiescent (tf0.take 1543) = true) := by decide +kernel
theorem witness_QuiescentBufferIsShort : rxReady (withBytes [0x5A#8, 0x5A#8, 0x5F#8]) = true ∧
    rxReady (withBytes [0x5A#8, 0x5A#8, 0x02#8, 0x06#8]) = true ∧ rxReady (withBytes (tf0.take 1543)) = true := by
  decide +kernel
theorem witness_DecisionMonotone :
    (decision [0x5A#8, 0x5A#8, 0x5F#8, 0x13#8] = .ok .emisAccept ∧ Decision.emisAccept.adv ≠ 0) ∧
    (decision [0x00#8, 0x5A#8, 0x5A#8, 0x5A#8] = .ok .resync ∧ Decision.resync.adv ≠ 0) :=
  ⟨⟨rfl, by decide⟩, ⟨rfl, by decide⟩⟩
theorem witness_TempFrameAccepted : (List.replicate 768 0#16).length = 768 ∧
    (withBytes (tf0 ++ [0x5A#8])).inb.buf = tempBytes (List.replicate 768 0#16) 0#16 0x605C#16 ++ [0x5A#8] ∧
    (0x605C#16).toNat = (0x5A5A + 0x0602 + sumHalves (List.replicate 768 0#16) + (0#16).toNat) % 65536 ∧
    (withBytes (tf0 ++ [0x5A#8])).inb.evq.length < (withBytes (tf0 ++ [0x5A#8])).cfg.evDepth := by decide +kernel
theorem witness_TempFrameRejected : (2501#16 :: (List.replicate 766 0#16 ++ [0xFFFF#16])).length = 768 ∧
    (withBytes tf1x).inb.buf =
      tempBytes (2501#16 :: (List.replicate 766 0#16 ++ [0xFFFF#16])) 2350#16 0x734D#16 ++ [] ∧
    (0x734D#16).toNat ≠ (0x5A5A + 0x0602 + sumHalves (2501#16 :: (List.replicate 766 0#16 ++ [0xFFFF#16])) +
      (2350#16).toNat) % 65536 := by decide +kernel
theorem witness_EmisFrameAccepted :
    ((withBytes [0x5A#8, 0x5A#8, 0x02#8, 0xB6#8]).inb.buf = emisBytes 0x02#8 0xB6#8 ++ [] ∧
      (0xB6#8).toNat = (0xB4 + (0x02#8).toNat) % 256 ∧ State.reset.inb.evq.length < State.reset.cfg.evDepth) ∧
    ((withBytes [0x5A#8, 0x5A#8, 0xFF#8, 0xB3#8]).inb.buf = emisBytes 0xFF#8 0xB3#8 ++ [] ∧
      (0xB3#8).toNat = (0xB4 + (0xFF#8).toNat) % 256) := by decide
theorem witness_EmisFrameRejected :
    (withBytes [0x5A#8, 0x5A#8, 0x02#8, 0x07#8]).inb.buf = emisBytes 0x02#8 0x07#8 ++ [] ∧
    ¬ (0x02#8 = 0x02#8 ∧ 0x07#8 = 0x06#8) ∧ (0x07#8).toNat ≠ (0xB4 + (0x02#8).toNat) % 256 := by decide
/-- TF0 is accepted (V7). -/
theorem decision_tf0 : decision tf0 = .ok .tempAccept := by
  have h : decided tf0 = some .tempAccept := by decide +kernel
  revert h; unfold decided
  cases decision tf0 <;> simp [Except.toOption]
theorem witness_AcceptHeldWhileQueueFull_temp :
    (withFullQueue (withBytes tf0)).cfg.evDepth ≤ (withFullQueue (withBytes tf0)).inb.evq.length ∧
    decision (withFullQueue (withBytes tf0)).inb.buf = .ok .tempAccept := ⟨by decide, decision_tf0⟩
theorem witness_AcceptHeldWhileQueueFull :
    (withFullQueue (withBytes [0x5A#8, 0x5A#8, 0x64#8, 0x18#8])).cfg.evDepth ≤
      (withFullQueue (withBytes [0x5A#8, 0x5A#8, 0x64#8, 0x18#8])).inb.evq.length ∧
    decision (withFullQueue (withBytes [0x5A#8, 0x5A#8, 0x64#8, 0x18#8])).inb.buf = .ok .emisAccept := ⟨by decide, rfl⟩
theorem witness_FrameNotAtHead : ¬ tempBytes [] 0#16 0#16 <+: State.reset.inb.buf ∧
    ¬ emisBytes 0x5F#8 0x13#8 <+: (withBytes [0x00#8, 0x5A#8, 0x5A#8, 0x5F#8, 0x13#8]).inb.buf := by decide
theorem witness_ResyncShortAndWait :
    (nextTurn (scheduled [.scan] (withBytes [0x00#8, 0x5A#8, 0x5A#8, 0x5A#8])) = some .scan ∧
      4 ≤ [0x00#8, 0x5A#8, 0x5A#8, 0x5A#8].length ∧
      ¬ ([0x00#8, 0x5A#8, 0x5A#8, 0x5A#8][0]? = some 0x5A#8 ∧ [0x00#8, 0x5A#8, 0x5A#8, 0x5A#8][1]? = some 0x5A#8)) ∧
    (nextTurn (scheduled [.scan] (withBytes [0x5A#8, 0x5A#8, 0x5F#8])) = some .scan ∧
      (scheduled [.scan] (withBytes [0x5A#8, 0x5A#8, 0x5F#8])).inb.buf.length < 4) ∧
    (nextTurn (scheduled [.scan] (withBytes (tf0.take 1543))) = some .scan ∧
      (scheduled [.scan] (withBytes (tf0.take 1543))).inb.buf.length < 1544) := by decide +kernel
/-- Enabled, also with EVQ full where the decision is RESYNC or EMIS_REJECT; not enabled, quiescent or held. -/
theorem witness_EnabledScanShrinks : scanEnabled (withBytes [0x00#8, 0x5A#8, 0x5A#8, 0x5A#8]) = true ∧
    scanEnabled (withFullQueue (withBytes [0x00#8, 0x5A#8, 0x5A#8, 0x5A#8])) = true ∧
    scanEnabled (withFullQueue (withBytes [0x5A#8, 0x5A#8, 0x5F#8, 0x14#8])) = true ∧
    scanEnabled State.reset = false ∧
    scanEnabled (withFullQueue (withBytes [0x5A#8, 0x5A#8, 0x64#8, 0x18#8])) = false := by decide
theorem witness_RunReachesQuiescence : [0x00#8, 0x5A#8, 0x5A#8, 0x5A#8].length ≤ 4 := by decide
theorem witness_ChunkingDoesNotMatter :
    quiescent [] = true ∧ quiescent [0x5A#8, 0x5A#8, 0x5F#8] = true ∧ quiescent (tf0.take 1543) = true := by
  decide +kernel
theorem witness_YieldConserved : 1544 ≤ (withBytes [0x5A#8, 0x5A#8, 0x5F#8, 0x13#8]).cfg.cap ∧
    nextTurn (withBytes [0x5A#8, 0x5A#8, 0x5F#8, 0x13#8]) = some .scan ∧ Turn.scan ≠ .reset ∧
    Turn.scan ≠ .withdrawByte ∧ ∃ t, step (withBytes [0x5A#8, 0x5A#8, 0x5F#8, 0x13#8]) = .next t :=
  ⟨by decide, by decide, by decide, by decide, _, rfl⟩
theorem witness_TempChecksumIsWordSum : 1542 ≤ (tf0.take 1542).length := by decide +kernel
theorem witness_TempChecksumIdentities : (List.replicate 768 0xFFFF#16).length = 768 := by decide +kernel
theorem witness_TempDecodeByIndex : 1544 ≤ tf1.length ∧ 0 < 768 ∧ 767 < 768 := by decide +kernel
theorem witness_TempSingleByteChangeDetected : tf0.length = 1544 ∧ decided tf0 = some .tempAccept ∧
    (tf0[4]? ≠ some 0x01#8 ∧ tf0[1543]? ≠ some 0x61#8) ∧ (tf0[0]? ≠ some 0x5B#8 ∧ tf0[3]? ≠ some 0x07#8) := by
  decide +kernel
theorem witness_TempSingleByteChangeDetected_decision : decision tf0 = .ok .tempAccept := decision_tf0
/-- One case each, with the change that makes a temperature candidate of the frame 5A 5A 52 06. -/
theorem witness_EmisSingleByteChangeDetected :
    ((0x06#8).toNat = (0xB4 + (0x52#8).toNat) % 256 ∧ (0x02#8 ≠ 0x52#8 ∧ 0x06#8 = 0x06#8)) ∧
    ((0x13#8).toNat = (0xB4 + (0x5F#8).toNat) % 256 ∧ (0x5F#8 = 0x5F#8 ∧ 0x14#8 ≠ 0x13#8)) := by decide
theorem witness_EmisFrameNeverTemp : (0xB6#8).toNat = (0xB4 + (0x02#8).toNat) % 256 := by decide
theorem witness_ChecksumLimits :
    ((1#16 :: List.replicate 767 0#16).length = 768 ∧
      (1#16 :: List.replicate 767 0#16).Perm (List.replicate 767 0#16 ++ [1#16])) ∧
    (0x02#8, ecs 0x02#8) ≠ (0x02#8, 0x06#8) :=
  ⟨⟨by decide +kernel, (List.perm_append_singleton _ _).symm⟩, by decide⟩
theorem witness_DecodeOfEncode : (Instr.emisFrame 0x02#8 0x07#8).WellFormed ∧
    encode (.emisFrame 0x02#8 0x07#8) = .inbound [0x5A#8, 0x5A#8, 0x02#8, 0x07#8] := by decide
theorem witness_EncodeOfDecode :
    decode (.inbound [0x5A#8, 0x5A#8, 0x5F#8, 0x13#8, 0x11#8]) = .ok (.emisFrame 0x5F#8 0x13#8) ∧
    decodeStream [0x5A#8, 0x5A#8, 0x5F#8, 0x13#8, 0x11#8] = .ok (.emisFrame 0x5F#8 0x13#8, [0x11#8]) := ⟨rfl, rfl⟩
/-- A clause each: a request with RSP empty and with RSP full; a byte with the port ready and not ready; a frame taken; a
scanner's frame; RESET; a status read. -/
theorem witness_StepRunsDecoded :
    (nextTurn (presenting [0x200000000#35] [] State.reset) = some .request ∧ State.reset.rsp = .empty) ∧
    (nextTurn (scheduled [.request] (presenting [0x200000000#35] [] (withRsp queryFrame))) = some .request ∧
      (withRsp queryFrame).rsp ≠ .empty) ∧
    (nextTurn (presenting [] [0x13#8] State.reset) = some .receive ∧ quiescent State.reset.inb.buf = true) ∧
    (nextTurn (scheduled [.receive] (presenting [] [0x13#8] (withBytes (List.replicate 4 0x00#8)))) = some .receive ∧
      quiescent (withBytes (List.replicate 4 0x00#8)).inb.buf = false) ∧
    (nextTurn (scheduled [.takeResponse] (withRsp queryFrame)) = some .takeResponse ∧
      decodeTableWord 32 0xA53501DB = some .cmdQuery) ∧
    nextTurn (withBytes [0x5A#8, 0x5A#8, 0x5F#8, 0x13#8]) = some .scan ∧
    nextTurn (scheduled [.reset] State.reset) = some .reset ∧
    nextTurn (scheduled [.readStatus] State.reset) = some .readStatus := by decide
theorem witness_StepRunsDecoded_decodes : decodeCmd 0xA5#8 0x35#8 0x01#8 0xDB#8 = .ok .cmdQuery ∧
    decodeStream (withBytes [0x5A#8, 0x5A#8, 0x5F#8, 0x13#8]).inb.buf = .ok (.emisFrame 0x5F#8 0x13#8, []) := ⟨rfl, rfl⟩
theorem witness_StepKeepsInboundInvariant : (withBytes [0x5A#8, 0x5A#8, 0x5F#8, 0x13#8]).Inv ∧
    ∃ t, step (withBytes [0x5A#8, 0x5A#8, 0x5F#8, 0x13#8]) = .next t :=
  ⟨⟨by decide, by decide, by decide, by decide, by decide, by decide, by simp [withBytes, Inbound.reset, State.setInb],
    by decide, by decide⟩, _, rfl⟩
theorem witness_StepKeepsResponseLegal :
    Response.Legal FreqCode.default (.frame 0xA5#8 0x15#8 0x01#8 0xBB#8) ∧
    Response.Legal FreqCode.default (.error 0x04#8 0x07#8) ∧
    State.reset.rsp.Legal State.reset.cfg.freqCode ∧ ∃ t, step State.reset = .next t :=
  ⟨⟨rfl, .inl ⟨rfl, .inl rfl⟩, by decide⟩, .inr (.inr ⟨rfl, rfl⟩), trivial, _, rfl⟩
/-- A buffer filled to CAP, and a move from it. -/
theorem witness_StepKeepsCapacity : Memory.wf (withCap 4 (withBytes [0x5A#8, 0x5A#8, 0x5F#8, 0x13#8])).cfg.cap
      (withCap 4 (withBytes [0x5A#8, 0x5A#8, 0x5F#8, 0x13#8])).inb.buf ∧
    ∃ t, step (withCap 4 (withBytes [0x5A#8, 0x5A#8, 0x5F#8, 0x13#8])) = .next t := ⟨by decide, _, rfl⟩
theorem witness_PathsAreDisjoint : (isRequest (.query 0#32) = true ∧ ∃ t, exec (.query 0#32) State.reset = .next t) ∧
    (isInbound (.rxPush 0x13#8) = true ∧ ∃ t, exec (.rxPush 0x13#8) State.reset = .next t) :=
  ⟨⟨by decide, _, rfl⟩, by decide, _, rfl⟩
/-- OVF cleared by RESET, and set by a PUSH at LEN = CAP = 3. -/
theorem witness_OverflowFlagSticky :
    (nextTurn (scheduled [.reset] (withOvf State.reset)) = some .reset ∧
      (scheduled [.reset] (withOvf State.reset)).inb.ovf = true ∧
      ∃ t, step (scheduled [.reset] (withOvf State.reset)) = .next t ∧ t.inb.ovf = false) ∧
    (nextTurn (presenting [] [0x13#8] (withCap 3 (withBytes [0x5A#8, 0x5A#8, 0x5F#8]))) = some .receive ∧
      (presenting [] [0x13#8] (withCap 3 (withBytes [0x5A#8, 0x5A#8, 0x5F#8]))).inb.ovf = false ∧
      ∃ t, step (presenting [] [0x13#8] (withCap 3 (withBytes [0x5A#8, 0x5A#8, 0x5F#8]))) = .next t ∧
        t.inb.ovf = true) :=
  ⟨⟨by decide, by decide, _, rfl, by decide⟩, by decide, by decide, _, rfl, by decide⟩
theorem witness_BufferChangesOnlyBy : nextTurn (presenting [] [0x13#8] State.reset) = some .receive ∧
    ∃ t, step (presenting [] [0x13#8] State.reset) = .next t := ⟨by decide, _, rfl⟩
theorem witness_EventsInOrder : nextTurn (withBytes [0x5A#8, 0x5A#8, 0x5F#8, 0x13#8]) = some .scan ∧
    Turn.scan ≠ .reset ∧ ∃ t, step (withBytes [0x5A#8, 0x5A#8, 0x5F#8, 0x13#8]) = .next t :=
  ⟨by decide, by decide, _, rfl⟩
theorem witness_IdleOnlyWhenFinal :
    (State.reset.setHost { HostSide.reset with promise := true }).cfg.Ok ∧
    (State.reset.setHost { HostSide.reset with promise := true }).host.sched = [] ∧
    (State.reset.setHost { HostSide.reset with promise := true }).host.promise = true := by decide
theorem witness_EventTaken :
    nextTurn (scheduled [.takeEvent] (withFullQueue State.reset)) = some .takeEvent ∧
    (scheduled [.takeEvent] (withFullQueue State.reset)).inb.evq = .emis 0x00#8 :: [] ∧
    nextTurn (scheduled [.takeEvent] State.reset) = some .takeEvent ∧
    (scheduled [.takeEvent] State.reset).inb.evq = [] := by decide

/-- The state with DBG_TRACE true. -/
def traced (s : State) : State := { s with cfg := { s.cfg with dbgTrace := true } }

/-- A step that stays out of quiescence, one to SHORT, one to TEMP_WAIT. -/
theorem witness_DecisionTrace :
    (decision (traced (withBytes [0#8, 0#8, 0#8, 0#8, 0#8])).inb.buf = .ok .resync ∧
      scanEnabled (traced (withBytes [0#8, 0#8, 0#8, 0#8, 0#8])) = true ∧
      ∃ t, scan (traced (withBytes [0#8, 0#8, 0#8, 0#8, 0#8])) = .next t ∧ quiescent t.inb.buf = false) ∧
    (scanEnabled (traced (withBytes [0#8, 0#8, 0#8, 0#8])) = true ∧
      ∃ t, scan (traced (withBytes [0#8, 0#8, 0#8, 0#8])) = .next t ∧ t.inb.buf.length < 4) ∧
    (scanEnabled (traced (withBytes [0#8, 0x5A#8, 0x5A#8, 0x02#8, 0x06#8])) = true ∧
      ∃ t, scan (traced (withBytes [0#8, 0x5A#8, 0x5A#8, 0x02#8, 0x06#8])) = .next t ∧ TempHead t.inb.buf ∧
        t.inb.buf.length < 1544) :=
  ⟨⟨rfl, by decide, _, rfl, by decide⟩, ⟨by decide, _, rfl, by decide⟩, by decide, _, rfl, ⟨rfl, rfl, rfl, rfl⟩, by decide⟩
/-- Overlapping regions with a byte of BUF above LEN, and all of BUF consumed. -/
theorem witness_CompactLoopKeepsBytes :
    (1 ≤ 1 ∧ 1 ≤ 4 ∧ 4 ≤ [0x00#8, 0x5A#8, 0x5A#8, 0x5F#8, 0x77#8].length ∧
      (withBytes [0x00#8, 0x5A#8, 0x5A#8, 0x5F#8]).inb.buf = [0x00#8, 0x5A#8, 0x5A#8, 0x5F#8, 0x77#8].take 4) ∧
    (1 ≤ 4 ∧ 4 ≤ 4 ∧ 4 ≤ [0x5A#8, 0x5A#8, 0x5F#8, 0x13#8].length ∧
      (withBytes [0x5A#8, 0x5A#8, 0x5F#8, 0x13#8]).inb.buf = [0x5A#8, 0x5A#8, 0x5F#8, 0x13#8].take 4) := by decide

end Sys2Proof.Tests
end

section
/-! The parameters and the buffer's capacity along a step (R7, R21, R134). -/

namespace Sys2Proof.Machine

/-- Every answer of a step, without its fetch: the state as it is, or the effect of one move (R17, R217). -/
theorem step_next_cases {s t : State} (h : step s = .next t) :
    t = s ∨ ∃ m, nextTurn s = some m ∧ t = turnEffect m (popTurn s) := by
  cases hm : nextTurn s with
  | none =>
    rw [step_none hm] at h
    cases h
    exact .inl rfl
  | some m =>
    rw [step_some hm] at h
    cases h
    exact .inr ⟨m, rfl, rfl⟩

/-- An advancing decision discards exactly its advance (R28, R152). -/
@[simp] theorem scanned_buf (cfg : Config) (d : Decision) (ev : Option Event) (n : Inbound) :
    (scanned cfg d ev n).buf = n.buf.drop d.adv := by simp [scanned]

/-- Discarding bytes from the front keeps the canonical form (R132). -/
theorem Memory.wf_drop {cap : Nat} {B : List Byte} (k : Nat) (hw : Memory.wf cap B) : Memory.wf cap (B.drop k) :=
  (List.drop_sublist k B).length_le.trans hw

/-- No move changes the parameters (R7). -/
@[simp] theorem turnEffect_cfg (m : Turn) (s : State) : (turnEffect m s).cfg = s.cfg := by
  cases m with
  | request => simp only [turnEffect]; split <;> [rfl; split <;> rfl]
  | receive => simp only [turnEffect]; split <;> [rfl; split <;> rfl]
  | scan =>
    obtain h | ⟨d, ev, -, -, -, -, -, h⟩ := turnEffect_scan_cases s
    · rw [h]
    · rw [h, State.setInb_cfg]
  | takeResponse => exact takeResponse_cfg s
  | withdrawByte => exact withdrawByte_cfg s
  | takeEvent => exact takeEvent_cfg s
  | readStatus => exact readStatus_cfg s
  | reset => exact resetBlock_cfg s

/-- Every move keeps the buffer within its capacity: a received byte is appended below CAP only, a SCAN step discards
bytes, RESET empties the buffer, and no other move touches it (R21, R134). -/
theorem turnEffect_wf (m : Turn) {s : State} (hw : Memory.wf s.cfg.cap s.inb.buf) :
    Memory.wf s.cfg.cap (turnEffect m s).inb.buf := by
  cases m with
  | request => simp only [turnEffect]; split <;> [exact hw; split <;> exact hw]
  | receive => simp only [turnEffect]; split <;> [exact hw; split <;> [exact pushByte_wf hw; exact hw]]
  | scan =>
    obtain h | ⟨d, ev, -, -, -, -, -, h⟩ := turnEffect_scan_cases s <;> rw [h]
    · exact hw
    · rw [State.setInb_inb, scanned_buf]
      exact Memory.wf_drop d.adv hw
  | takeResponse => rwa [turnEffect, takeResponse_inb]
  | withdrawByte => exact hw
  | takeEvent => rwa [turnEffect, takeEvent_inb]
  | readStatus => exact hw
  | reset => exact reset_wf _

/-- Settles O52: a step is the effect of one move or none, and no move changes the parameters or fills the buffer past
CAP. -/
theorem stepKeepsCapacity : Obligations.StepKeepsCapacity := by
  intro s t hw hstep
  obtain rfl | ⟨m, -, rfl⟩ := step_next_cases hstep
  · exact ⟨rfl, hw⟩
  · rw [turnEffect_cfg, popTurn_cfg]
    exact ⟨rfl, turnEffect_wf m (s := popTurn s) hw⟩

end Sys2Proof.Machine
end

section
/-! The inbound path along a step: what each move does to it, and the invariant of R134 (R23, R24, R31, R131, R188). -/

namespace Sys2Proof.Machine

/-! ### What a move does to the inbound path -/

/-- Every way a move can leave the inbound path (R39, R41): as it is, with a byte pushed, after an advancing decision,
without the head of EVQ, or reset. -/
theorem turnEffect_inb_cases (m : Turn) (s : State) :
    (turnEffect m s).inb = s.inb ∨
    (m = .receive ∧ s.host.rxIn ≠ [] ∧ quiescent s.inb.buf = true ∧
      ∃ b, (turnEffect m s).inb = pushByte s.cfg.cap s.inb b) ∨
    (m = .scan ∧ ∃ d ev, eventOf d s.inb.buf = .ok ev ∧ d.adv ≤ s.inb.buf.length ∧
      (ev.isSome → s.inb.evq.length < s.cfg.evDepth) ∧ (turnEffect m s).inb = scanned s.cfg d ev s.inb) ∨
    (m = .takeEvent ∧ (turnEffect m s).inb = { s.inb with evq := s.inb.evq.tail }) ∨
    (m = .reset ∧ (turnEffect m s).inb = Inbound.reset) := by
  cases m with
  | request => exact .inl (by simp only [turnEffect]; split <;> [rfl; split <;> rfl])
  | takeResponse => exact .inl (takeResponse_inb s)
  | receive =>
    cases hr : s.host.rxIn with
    | nil => exact .inl (by simp [turnEffect, hr])
    | cons b bs =>
      by_cases hq : quiescent s.inb.buf = true
      · exact .inr (.inl ⟨rfl, by simp, hq, b, by simp [turnEffect, hr, hq]⟩)
      · exact .inl (by simp [turnEffect, hr, hq])
  | withdrawByte => exact .inl (withdrawByte_inb s)
  | scan =>
    obtain h | ⟨d, ev, -, he, -, ha, hq, h⟩ := turnEffect_scan_cases s
    · exact .inl (by rw [h])
    · exact .inr (.inr (.inl ⟨rfl, d, ev, he, ha, hq, by rw [h, State.setInb_inb]⟩))
  | takeEvent => exact .inr (.inr (.inr (.inl ⟨rfl, takeEvent_inb s⟩)))
  | readStatus => exact .inl (readStatus_inb s)
  | reset => exact .inr (.inr (.inr (.inr ⟨rfl, resetBlock_inb s⟩)))

@[simp] theorem scanned_ovf (cfg : Config) (d : Decision) (ev : Option Event) (n : Inbound) :
    (scanned cfg d ev n).ovf = n.ovf := by simp [scanned]

@[simp] theorem scanned_evq (cfg : Config) (d : Decision) (ev : Option Event) (n : Inbound) :
    (scanned cfg d ev n).evq = n.evq ++ ev.toList := by simp [scanned]

@[simp] theorem scanned_inCount (cfg : Config) (d : Decision) (ev : Option Event) (n : Inbound) :
    (scanned cfg d ev n).inCount = n.inCount := by simp [scanned]

@[simp] theorem scanned_posCount (cfg : Config) (d : Decision) (ev : Option Event) (n : Inbound) :
    (scanned cfg d ev n).posCount = n.posCount + d.adv := by simp [scanned]

@[simp] theorem scanned_stream (cfg : Config) (d : Decision) (ev : Option Event) (n : Inbound) :
    (scanned cfg d ev n).stream = n.stream := by simp [scanned]

/-- Without DBG_TRACE a SCAN step outputs no record (R38). -/
theorem scanned_trace_of_not_dbgTrace {cfg : Config} (hc : cfg.dbgTrace = false) (d : Decision) (ev : Option Event)
    (n : Inbound) : (scanned cfg d ev n).trace = n.trace := by simp [scanned, traceStep, hc]

/-- PUSH below CAP appends the byte (R130). -/
theorem pushByte_of_lt {cap : Nat} {n : Inbound} (h : n.buf.length < cap) (b : Byte) :
    pushByte cap n b = memAppend n b := if_pos h

/-- PUSH at CAP drops the byte and sets OVF (R130, R203). -/
theorem pushByte_of_le {cap : Nat} {n : Inbound} (h : cap ≤ n.buf.length) (b : Byte) :
    pushByte cap n b = raiseOverflow n := if_neg (by omega)

@[simp] theorem pushByte_evq (cap : Nat) (n : Inbound) (b : Byte) : (pushByte cap n b).evq = n.evq := by
  unfold pushByte; split <;> rfl

/-! ### The records an accepting decision emits are legal (R188) -/

/-- `s16` answers an i16 (R13, R15). -/
theorem s16_bounds (u : Half) : -32768 ≤ s16 u ∧ s16 u ≤ 32767 := by
  have := u.isLt
  unfold s16; split <;> omega

/-- A temperature frame has 768 samples (R182). -/
theorem samplesOf_length {F : List Byte} (h : sampleOffset + 2 * nSamples ≤ F.length) :
    (samplesOf F).length = nSamples := by
  rw [samplesOf, List.length_map, words_length, List.length_take, List.length_drop]
  omega

/-- The decoder of a temperature frame answers legal records only (R182, R183, R188). -/
theorem decodeTemp_event_ok {B : List Byte} {e : Event} (h : decodeTemp B = .ok e) : e.Ok := by
  by_cases hl : frameSize ≤ B.length
  · obtain ⟨lo, hi, ha, hb⟩ := exists_two_bytes (B := B) (o := ambientOffset)
      (by simp only [ambientOffset, frameSize] at *; omega)
    rw [decodeTemp, memRead_ok (by omega), readHalf_ok ha hb] at h
    cases h
    refine ⟨samplesOf_length ?_, ?_, s16_bounds _⟩
    · simp [sampleOffset, nSamples, frameSize] at hl ⊢; omega
    · simp only [samplesOf, List.mem_map, forall_exists_index, and_imp, forall_apply_eq_imp_iff₂]
      exact fun u _ => s16_bounds u
  · rw [decodeTemp, memRead_error.2 (by omega)] at h
    cases h

/-- Whatever record a decision emits is legal (R188). -/
theorem eventOf_event_ok {B : List Byte} {d : Decision} {e : Event} (h : eventOf d B = .ok (some e)) : e.Ok := by
  cases d with
  | tempAccept =>
    cases ht : decodeTemp B with
    | error f => simp [eventOf, ht, bind, Except.bind] at h
    | ok e' =>
      simp only [eventOf, ht, bind, Except.bind, pure, Except.pure, Except.ok.injEq, Option.some.injEq] at h
      exact h ▸ decodeTemp_event_ok ht
  | emisAccept =>
    cases e with
    | emis value => trivial
    | temp samples ambient =>
      cases hv : readByte B 2 <;> simp [eventOf, decodeEmis, hv, bind, Except.bind, pure, Except.pure] at h
  | short | resync | tempWait | tempReject | emisReject => simp [eventOf, pure, Except.pure] at h

/-! ### Each operation keeps the invariant -/

/-- Quiescence from four bytes on: a temperature candidate that waits for its last byte (R150). -/
theorem quiescent_cons (b0 b1 b2 b3 : Byte) (rest : List Byte) :
    quiescent (b0 :: b1 :: b2 :: b3 :: rest) = true ↔
      (b0 = hdrByte ∧ b1 = hdrByte) ∧ (b2 = 0x02#8 ∧ b3 = 0x06#8) ∧ rest.length < 1540 := by
  have hl : (b0 :: b1 :: b2 :: b3 :: rest).length < 1544 ↔ rest.length < 1540 := by
    simp only [List.length_cons]; omega
  simp only [quiescent, Bool.and_eq_true, beq_iff_eq, decide_eq_true_eq, hl, hdrByte, and_assoc]

/-- A quiescent buffer is shorter than a temperature frame (R150, R161). -/
theorem quiescent_length_lt {B : List Byte} (h : quiescent B = true) : B.length < frameSize := by
  obtain hs | ⟨b0, b1, b2, b3, rest, rfl⟩ := short_or_cons B
  · exact hs.trans (by decide)
  · obtain ⟨-, -, hl⟩ := (quiescent_cons b0 b1 b2 b3 rest).1 h
    exact Nat.add_lt_add_right hl 4

/-- RESET's inbound path meets the invariant (R40, R134). -/
theorem reset_inv {cfg : Config} (hc : cfg.Ok) : Inbound.reset.Inv cfg where
  params := hc
  fill := Nat.zero_le _
  count := rfl
  accepted := rfl
  window := rfl
  depth := Nat.zero_le _
  records := nofun
  noOverflow := rfl
  noTrace := fun _ => rfl

/-- A byte received on a quiescent buffer keeps the invariant: LEN is below CAP, so it is appended (R130, R131). -/
theorem pushByte_inv {cfg : Config} {n : Inbound} (h : n.Inv cfg) (hq : quiescent n.buf = true) (b : Byte) :
    (pushByte cfg.cap n b).Inv cfg := by
  have hl : n.buf.length < frameSize := quiescent_length_lt hq
  obtain ⟨hmin, -, -⟩ := h.params
  have hcap : frameSize ≤ cfg.cap := le_trans (by decide) hmin
  rw [pushByte_of_lt (hl.trans_le hcap)]
  exact
    { params := h.params
      fill := by simpa using hl
      count := by have := h.count; simp; omega
      accepted := by simp [h.accepted]
      window := by
        have hp : n.posCount ≤ n.stream.length := by have := h.count; have := h.accepted; omega
        rw [memAppend_stream, memAppend_posCount, List.drop_append_of_le_length hp, ← h.window, memAppend_buf]
      depth := h.depth
      records := h.records
      noOverflow := h.noOverflow
      noTrace := h.noTrace }

/-- An advancing decision with room in EVQ for its record keeps the invariant (R132, R152). -/
theorem scanned_inv {cfg : Config} {n : Inbound} (h : n.Inv cfg) {d : Decision} {ev : Option Event}
    (he : eventOf d n.buf = .ok ev) (ha : d.adv ≤ n.buf.length) (hq : ev.isSome → n.evq.length < cfg.evDepth) :
    (scanned cfg d ev n).Inv cfg where
  params := h.params
  fill := by have := h.fill; simp; omega
  count := by have := h.count; simp; omega
  accepted := by simp [h.accepted]
  window := by rw [scanned_buf, scanned_stream, scanned_posCount, ← List.drop_drop, ← h.window]
  depth := by
    cases ev with
    | none => simpa using h.depth
    | some e => simpa using hq rfl
  records := by
    intro e hmem
    rw [scanned_evq, List.mem_append] at hmem
    obtain hold | hnew := hmem
    · exact h.records e hold
    · rw [Option.mem_toList] at hnew
      exact eventOf_event_ok (hnew ▸ he)
  noOverflow := by rw [scanned_ovf, h.noOverflow]
  noTrace := fun hc => by rw [scanned_trace_of_not_dbgTrace hc, h.noTrace hc]

/-- Taking the head of EVQ keeps the invariant (R35). -/
theorem tail_evq_inv {cfg : Config} {n : Inbound} (h : n.Inv cfg) :
    Inbound.Inv cfg { n with evq := n.evq.tail } :=
  { h with
    depth := by have := h.depth; simp; omega
    records := fun e he => h.records e (List.mem_of_mem_tail he) }

/-- Every move keeps the invariant of the inbound path. -/
theorem turnEffect_inv (m : Turn) {s : State} (h : s.Inv) : (turnEffect m s).Inv := by
  rw [State.Inv, turnEffect_cfg]
  obtain hi | ⟨-, -, hq, b, hi⟩ | ⟨-, d, ev, he, ha, hq, hi⟩ | ⟨-, hi⟩ | ⟨-, hi⟩ := turnEffect_inb_cases m s <;>
    rw [hi]
  · exact h
  · exact pushByte_inv h hq b
  · exact scanned_inv h he ha hq
  · exact tail_evq_inv h
  · exact reset_inv h.params

/-- Settles O50: a step is the effect of one move or none, and every move keeps the invariant. -/
theorem stepKeepsInboundInvariant : Obligations.StepKeepsInboundInvariant := by
  intro s t hs hstep
  obtain rfl | ⟨m, -, rfl⟩ := step_next_cases hstep
  · exact hs
  · exact turnEffect_inv m (s := popTurn s) hs

/-- Settles O19: RESET's values are R42's, and they meet the invariant for parameters in their ranges. -/
theorem resetStateIsClean : Obligations.ResetStateIsClean := by
  refine ⟨fun c => ⟨⟨rfl, rfl, rfl, rfl, rfl, rfl⟩, reset_inv⟩, reset_inv ?_, rfl⟩
  decide

/-! ### The overflow flag and the order of the records -/

/-- Every way a move can leave OVF: as it is, set by a byte received at LEN = CAP, or cleared by RESET (R23, R203). -/
theorem turnEffect_ovf_cases (m : Turn) (s : State) :
    (turnEffect m s).inb.ovf = s.inb.ovf ∨
    ((m = .receive ∧ s.host.rxIn ≠ [] ∧ quiescent s.inb.buf = true ∧ s.cfg.cap ≤ s.inb.buf.length) ∧
      (turnEffect m s).inb.ovf = true) ∨
    (m = .reset ∧ (turnEffect m s).inb.ovf = false) := by
  obtain hi | ⟨hr, hne, hq, b, hi⟩ | ⟨-, d, ev, -, -, -, hi⟩ | ⟨-, hi⟩ | ⟨hr, hi⟩ := turnEffect_inb_cases m s <;>
    rw [hi]
  · exact .inl rfl
  · by_cases hl : s.inb.buf.length < s.cfg.cap
    · exact .inl (by rw [pushByte_of_lt hl, memAppend_ovf])
    · have hl : s.cfg.cap ≤ s.inb.buf.length := not_lt.1 hl
      exact .inr (.inl ⟨⟨hr, hne, hq, hl⟩, by rw [pushByte_of_le hl, raiseOverflow_ovf]⟩)
  · exact .inl (scanned_ovf ..)
  · exact .inl rfl
  · exact .inr (.inr ⟨hr, rfl⟩)

/-- Settles O54: of the moves only a byte received at LEN = CAP sets OVF, and only RESET clears it. -/
theorem overflowFlagSticky : Obligations.OverflowFlagSticky := by
  intro s t m hm hstep
  rw [step_some hm] at hstep
  cases hstep
  obtain ho | ⟨hset, ho⟩ | ⟨hr, ho⟩ := turnEffect_ovf_cases m (popTurn s) <;> rw [ho]
  · rw [popTurn_inb]; cases s.inb.ovf <;> simp
  · exact ⟨nofun, fun _ _ => hset⟩
  · exact ⟨fun _ _ => hr, nofun⟩

/-- Taking an event moves the head of EVQ to what the host has taken (R35). -/
theorem takeEvent_evOut_append_evq (s : State) :
    (takeEvent s).host.evOut ++ (takeEvent s).inb.evq = s.host.evOut ++ s.inb.evq := by
  unfold takeEvent; split <;> rename_i h <;> simp [h]

/-- The host is handed a record by taking an event alone (R35). -/
theorem turnEffect_evOut {m : Turn} (hm : m ≠ .takeEvent) (s : State) :
    (turnEffect m s).host.evOut = s.host.evOut := by
  cases m with
  | takeEvent => exact absurd rfl hm
  | request => simp only [turnEffect]; split <;> [rfl; split <;> rfl]
  | takeResponse => simp only [turnEffect, takeResponse]; split <;> rfl
  | receive => simp only [turnEffect]; split <;> [rfl; split <;> rfl]
  | scan => simp only [turnEffect]; split <;> rfl
  | withdrawByte | readStatus | reset => rfl

/-- Settles O56: taken and waiting records together change by the record of a SCAN step, which goes to the tail. -/
theorem eventsInOrder : Obligations.EventsInOrder := by
  intro s t m hm hnr hstep
  rw [step_some hm] at hstep
  cases hstep
  by_cases hte : m = .takeEvent
  · subst hte
    exact ⟨[], by rw [List.append_nil]; exact takeEvent_evOut_append_evq (popTurn s), by simp⟩
  have hout : (turnEffect m (popTurn s)).host.evOut = s.host.evOut := turnEffect_evOut hte _
  rw [hout]
  obtain hi | ⟨-, -, -, b, hi⟩ | ⟨hs, d, ev, -, -, -, hi⟩ | ⟨ht, -⟩ | ⟨hr, -⟩ := turnEffect_inb_cases m (popTurn s)
  · exact ⟨[], by simp [hi]⟩
  · exact ⟨[], by simp [hi]⟩
  · exact ⟨ev.toList, by simp [hi], by cases ev <;> simp, fun _ => hs⟩
  · exact absurd ht hte
  · exact absurd hr hnr

end Sys2Proof.Machine
end

section
/-! The command path: what each request row and each CMD row does (R32, R33, R101), and what the two paths share of the
state (R41). -/

namespace Sys2Proof.Machine

/-! ### The response slot -/

@[simp] theorem State.setRsp_self (s : State) : s.setRsp s.rsp = s := rfl

/-- A request waits while RSP is held (R32, R101). -/
theorem exec_request_of_held {i : Instr} {s : State} (hi : isRequest i = true) (h : s.rsp ≠ .empty) :
    exec i s = .next s := by
  rw [exec_request hi, encoderStep, if_neg (by simpa [reqReady] using h)]

/-- A request is answered while RSP is empty (R101). -/
theorem exec_request_of_empty {i : Instr} {s : State} (hi : isRequest i = true) (h : s.rsp = .empty) :
    exec i s = .next (s.setRsp (requestResponse s.cfg.freqCode i)) := by
  rw [exec_request hi, encoderStep, if_pos (by simp [reqReady, h]), respond]

/-- A CMD row whose frame RSP holds hands it over (R33). -/
theorem exec_cmd_of_held {i : Instr} {b0 b1 b2 b3 : Byte} {s : State} (he : encode i = .cmd b0 b1 b2 b3)
    (h : s.rsp = .frame b0 b1 b2 b3) : exec i s = .next s.handedOver := by
  rw [exec_of_encode_cmd he, takeFrame, if_pos h, takeResponse_eq (by simp [h])]

/-- A CMD row whose frame RSP does not hold changes nothing (log 2). -/
theorem exec_cmd_of_not_held {i : Instr} {b0 b1 b2 b3 : Byte} {s : State} (he : encode i = .cmd b0 b1 b2 b3)
    (h : s.rsp ≠ .frame b0 b1 b2 b3) : exec i s = .next s := by
  rw [exec_of_encode_cmd he, takeFrame, if_neg h]

/-- Settles O6: a request row is the encoder step, which waits while RSP is held. -/
theorem requestWaitsWhileResponseHeld : Obligations.RequestWaitsWhileResponseHeld :=
  fun _ _ => exec_request_of_held

/-- Settles O12: each CMD row is the transfer of its own frame. -/
theorem commandFrameTransfers : Obligations.CommandFrameTransfers := fun _ _ _ =>
  ⟨exec_cmd_of_held rfl, exec_cmd_of_held rfl, exec_cmd_of_held rfl, exec_cmd_of_held rfl, exec_cmd_of_held rfl,
    exec_cmd_of_held rfl, exec_cmd_of_held rfl⟩

/-- Settles O13: the transfer of a frame asks that RSP hold it. -/
theorem commandFrameNotPresented : Obligations.CommandFrameNotPresented :=
  fun _ _ _ _ _ _ => exec_cmd_of_not_held

/-! ### The encoder's frames are rows of the table (R73, R91) -/

/-- Whatever frame answers a request decodes to a CMD row. -/
theorem decodeCmd_requestResponse {f : FreqCode} {i : Instr} {b0 b1 b2 b3 : Byte}
    (h : requestResponse f i = .frame b0 b1 b2 b3) : ∃ j, decodeCmd b0 b1 b2 b3 = .ok j := by
  cases i with
  | setBitrate arg =>
    cases hp : bitrateCode arg <;> simp only [requestResponse, encodeBitrate, hp] at h <;> cases h
    exact ⟨_, rfl⟩
  | setUpdfreq arg =>
    cases hp : freqCode f arg <;> simp only [requestResponse, encodeUpdfreq, hp] at h <;> cases h
    exact ⟨_, rfl⟩
  | query | automatic | setEmis | getEmis | save => cases h; exact ⟨_, rfl⟩
  | _ => cases h

/-- A response put into an empty slot and taken leaves the slot empty and the host with it (R33). -/
theorem State.handedOver_setRsp {s : State} (h : s.rsp = .empty) (r : Response) :
    (s.setRsp r).handedOver = { s with host := { s.host with rspOut := s.host.rspOut ++ [r] } } := by
  rw [State.handedOver, State.setRsp_rsp, ← h]; rfl

/-- Settles O14: the frame decodes to the row it encodes, and that row's transfer hands it over. -/
theorem encodedFrameIsHandedOver : Obligations.EncodedFrameIsHandedOver := by
  intro i s t b0 b1 b2 b3 hi he ht hf
  rw [exec_request_of_empty hi he] at ht
  cases ht
  rw [State.setRsp_rsp] at hf
  obtain ⟨j, hj⟩ := decodeCmd_requestResponse hf
  have henc : encode j = .cmd b0 b1 b2 b3 := decodeCmd_encode hj
  refine ⟨j, hj, henc, ?_⟩
  rw [hf, exec_cmd_of_held henc rfl, State.handedOver_setRsp he]

/-! ### The two paths are disjoint (R41) -/

/-- A request's new RSP is a function of the parameters and RSP alone, and is all that changes. -/
theorem exec_request_uniform {i : Instr} (hi : isRequest i = true) (s : State) :
    ∃ r, ∀ s' : State, s'.cfg = s.cfg → s'.rsp = s.rsp → exec i s' = .next (s'.setRsp r) := by
  by_cases h : s.rsp = .empty
  · exact ⟨_, fun s' hc hr => by rw [exec_request_of_empty hi (hr.trans h), hc]⟩
  · exact ⟨s.rsp, fun s' _ hr => by rw [exec_request_of_held hi (hr ▸ h), ← hr, State.setRsp_self]⟩

/-- What a frame's decision leaves is a function of the parameters and the inbound path alone, and is all that changes. -/
theorem scanFrame_uniform (F : List Byte) (s : State) :
    ∃ n, ∀ s' : State, s'.cfg = s.cfg → s'.inb = s.inb → scanFrame F s' = .next (s'.setInb n) := by
  by_cases hF : F <+: s.inb.buf
  · obtain ⟨n, hn, -⟩ := scan_next s
    exact ⟨n, fun s' hc hb => by simp [scanFrame, List.isPrefixOf_iff_prefix, scan, hc, hb, hF, hn]⟩
  · exact ⟨s.inb, fun s' _ hb => by simp [scanFrame, List.isPrefixOf_iff_prefix, hb ▸ hF, ← hb]⟩

/-- What a PUSH leaves is a function of the parameters and the inbound path alone, and is all that changes. -/
theorem execRxPush_uniform (b : Byte) (s : State) :
    ∃ n, ∀ s' : State, s'.cfg = s.cfg → s'.inb = s.inb → execRxPush b s' = .next (s'.setInb n) := by
  by_cases hq : quiescent s.inb.buf = true
  · exact ⟨_, fun s' hc hb => by rw [execRxPush, rxReady, hb, if_pos hq, hc]⟩
  · exact ⟨s.inb, fun s' _ hb => by rw [execRxPush, rxReady, hb, if_neg hq, ← hb, State.setInb_self]⟩

/-- An inbound operation's new inbound path is a function of the parameters and the inbound path alone, and is all that
changes. -/
theorem exec_inbound_uniform {i : Instr} (hi : isInbound i = true) (s : State) :
    ∃ n, ∀ s' : State, s'.cfg = s.cfg → s'.inb = s.inb → exec i s' = .next (s'.setInb n) := by
  cases i with
  | tempFrame samples ambient checksum => exact scanFrame_uniform (tempBytes samples ambient checksum) s
  | emisFrame value checksum => exact scanFrame_uniform (emisBytes value checksum) s
  | rxPush data => exact execRxPush_uniform data s
  | _ => cases hi

/-- Settles O53: a request's effect is one new RSP whatever the inbound path and the host hold, and an inbound operation's
is one new inbound path whatever RSP and the host hold. -/
theorem pathsAreDisjoint : Obligations.PathsAreDisjoint := by
  constructor
  · intro i s t n h hi ht
    obtain ⟨r, hr⟩ := exec_request_uniform hi s
    rw [hr s rfl rfl] at ht
    cases ht
    exact ⟨rfl, rfl, hr _ rfl rfl⟩
  · intro i s t r h hi ht
    obtain ⟨n, hn⟩ := exec_inbound_uniform hi s
    rw [hn s rfl rfl] at ht
    cases ht
    exact ⟨rfl, rfl, hn _ rfl rfl⟩

end Sys2Proof.Machine
end

section
/-! The moves of a step one by one: what each fetches and hands over (R32 to R37), and when no move is left (R43). -/

namespace Sys2Proof.Machine

/-! ### What a move fetches -/

/-- A step whose move fetches an operation runs it. -/
theorem step_of_fetch_instr {s s' : State} {t : Turn} {i : Instr} (ht : nextTurn s = some t)
    (hf : fetch t (popTurn s) = .instr i s') : step s = exec i s' := by simp [step, ht, hf]

/-- A request presented while RSP is empty leaves its port (R32). -/
theorem fetchRequest_of_empty {s : State} {w : BitVec 35} {ws : List (BitVec 35)} (h : s.host.reqIn = w :: ws)
    (he : s.rsp = .empty) :
    fetchRequest s = .instr (decodeReq w) (s.setHost { s.host with reqIn := ws }) := by
  simp [fetchRequest, h, reqReady, he]

/-- A request presented while RSP is held stays on its port (R32). -/
theorem fetchRequest_of_held {s : State} {w : BitVec 35} {ws : List (BitVec 35)} (h : s.host.reqIn = w :: ws)
    (he : s.rsp ≠ .empty) : fetchRequest s = .instr (decodeReq w) s := by
  simp [fetchRequest, h, reqReady, he]

/-- A byte presented while the buffer is quiescent leaves its port (R34). -/
theorem fetchByte_of_quiescent {s : State} {b : Byte} {bs : List Byte} (h : s.host.rxIn = b :: bs)
    (hq : quiescent s.inb.buf = true) :
    fetchByte s = .instr (.rxPush b) (s.setHost { s.host with rxIn := bs }) := by
  simp [fetchByte, h, rxReady, hq]

/-- A byte presented while a SCAN step may be enabled stays on its port (R34). -/
theorem fetchByte_of_not_quiescent {s : State} {b : Byte} {bs : List Byte} (h : s.host.rxIn = b :: bs)
    (hq : quiescent s.inb.buf = false) : fetchByte s = .instr (.rxPush b) s := by
  simp [fetchByte, h, rxReady, hq]

/-- The response port gives the CMD row of the frame in RSP (R33). -/
theorem fetchResponse_frame {s : State} {b0 b1 b2 b3 : Byte} {i : Instr} (h : s.rsp = .frame b0 b1 b2 b3)
    (hd : decodeCmd b0 b1 b2 b3 = .ok i) : fetchResponse s = .instr i s := by simp [fetchResponse, h, hd]

/-- The scanner's fetch gives the frame at buffer offset 0 (R152). -/
theorem fetchScan_frame {s : State} {i : Instr} {rest : List Byte} (h : decodeStream s.inb.buf = .ok (i, rest)) :
    fetchScan s = .instr i s := by simp [fetchScan, h]

/-- Settles O48: each move fetches what its port or the buffer holds, and the step runs it. -/
theorem stepRunsDecoded : Obligations.StepRunsDecoded := by
  intro s
  refine ⟨?request, ?requestWaits, ?receive, ?receiveWaits, ?response, ?scan, ?reset, ?status⟩
  case request => exact fun w ws ht hr he => step_of_fetch_instr ht (fetchRequest_of_empty hr he)
  case requestWaits => exact fun w ws ht hr he => step_of_fetch_instr ht (fetchRequest_of_held hr he)
  case receive => exact fun b bs ht hr hq => step_of_fetch_instr ht (fetchByte_of_quiescent hr hq)
  case receiveWaits => exact fun b bs ht hr hq => step_of_fetch_instr ht (fetchByte_of_not_quiescent hr hq)
  case response => exact fun b0 b1 b2 b3 i ht hr hd => step_of_fetch_instr ht (fetchResponse_frame hr hd)
  case scan => exact fun i rest ht hd => step_of_fetch_instr ht (fetchScan_frame hd)
  case reset => exact fun ht => step_of_fetch_instr ht rfl
  case status => exact fun ht => step_of_fetch_instr ht rfl

/-! ### What the host takes -/

/-- With RSP empty there is no response to take (R33). -/
theorem takeResponse_of_empty {s : State} (h : s.rsp = .empty) : takeResponse s = s := if_pos h

/-- With EVQ empty there is no event to take (R35). -/
theorem takeEvent_nil {s : State} (h : s.inb.evq = []) : takeEvent s = s := by simp [takeEvent, h]

/-- The head of EVQ is handed over whole (R35). -/
theorem takeEvent_cons {s : State} {e : Event} {rest : List Event} (h : s.inb.evq = e :: rest) :
    takeEvent s = { s with
      inb := { s.inb with evq := rest }
      host := { s.host with evOut := s.host.evOut ++ [e] } } := by
  simp [takeEvent, h, State.setInb, State.setHost]

/-- Settles O15: the host's move takes whatever RSP holds. -/
theorem errorResponseTaken : Obligations.ErrorResponseTaken := by
  intro s ht
  rw [step_some ht, turnEffect]
  exact ⟨fun code info hr => by rw [takeResponse_eq (by simp [hr])],
    fun hr => by rw [takeResponse_of_empty (s := popTurn s) hr]⟩

/-- Settles O58: the host's move takes the head of EVQ where there is one. -/
theorem eventTaken : Obligations.EventTaken := by
  intro s ht
  rw [step_some ht, turnEffect]
  exact ⟨fun e rest hq => by rw [takeEvent_cons (s := popTurn s) hq]; rfl,
    fun hq => by rw [takeEvent_nil (s := popTurn s) hq]⟩

/-! ### No move left -/

/-- Quiescence is one of the two decisions that are no step (R150, R151). -/
theorem quiescent_iff_decision (B : List Byte) :
    quiescent B = true ↔ decision B = .ok .short ∨ decision B = .ok .tempWait := by
  obtain hs | ⟨b0, b1, b2, b3, rest, rfl⟩ := short_or_cons B
  · refine iff_of_true ?_ (.inl (decision_short hs))
    match B, hs with
    | [], _ | [_], _ | [_, _], _ | [_, _, _], _ => rfl
  · rw [decision_cons, quiescent_cons]
    split_ifs <;> simp_all

/-- With room in EVQ a SCAN step is enabled exactly when the buffer is not quiescent (R150, R152). -/
theorem scanEnabled_of_room {s : State} (h : s.inb.evq.length < s.cfg.evDepth) :
    scanEnabled s = !quiescent s.inb.buf := by
  have hq := quiescent_iff_decision s.inb.buf
  rcases decision_cases s.inb.buf with ⟨hd, -⟩ | ⟨-, hd | hd | hd⟩ | ⟨hd, -⟩ | ⟨-, hd | hd⟩ <;>
    simp_all [scanEnabled]

/-- With no move scheduled none is left exactly when no agent of the fixed order has one (log 5). -/
theorem nextTurn_eq_none_iff {s : State} (h : s.host.sched = []) :
    nextTurn s = none ↔ scanEnabled s = false ∧ (s.host.reqIn ≠ [] → s.rsp ≠ .empty) ∧
      (s.host.rxIn ≠ [] → quiescent s.inb.buf = false) ∧
      (s.host.promise = true → s.inb.evq = [] ∧ s.rsp = .empty) := by
  simp only [nextTurn, h]
  split_ifs <;> simp_all [reqReady, rxReady, evPending, rspFull]

/-- An empty event queue has room (R8). -/
theorem evq_room {s : State} (hc : s.cfg.Ok) (h : s.inb.evq = []) : s.inb.evq.length < s.cfg.evDepth := by
  obtain ⟨-, -, hdepth⟩ := hc
  rw [h]; exact hdepth

/-- Settles O57: with the promise kept EVQ and RSP are empty, so a SCAN step is held by nothing but quiescence, and
neither port refuses what is presented. -/
theorem idleOnlyWhenFinal : Obligations.IdleOnlyWhenFinal := by
  intro s hc hs hp
  rw [nextTurn_eq_none_iff hs, State.Final]
  constructor
  · rintro ⟨hscan, hreq, hrx, htake⟩
    obtain ⟨hev, hrsp⟩ := htake hp
    rw [scanEnabled_of_room (evq_room hc hev), Bool.not_eq_false'] at hscan
    exact ⟨not_not.1 fun hne => by simp [hrx hne] at hscan, not_not.1 fun hne => hreq hne hrsp, hscan, hev, hrsp⟩
  · rintro ⟨hrx, hreq, hq, hev, hrsp⟩
    refine ⟨?_, fun hne => absurd hreq hne, fun hne => absurd hrx hne, fun _ => ⟨hev, hrsp⟩⟩
    rw [scanEnabled_of_room (evq_room hc hev), hq]; rfl

end Sys2Proof.Machine
end

section
/-! The encodings (30_encoding.md): decode and encode are inverse on the well-formed operations, format by format. -/

namespace Sys2Proof.Machine

/-! ### From an operation to its transfer and back -/

/-- A request's word decodes to the request (R70). -/
theorem decodeReq_of_encode {i : Instr} {w : BitVec 35} (h : encode i = .req35 w) : decodeReq w = i := by
  cases i <;> cases h <;> simp [decodeReq]

/-- A CMD row's frame decodes to the row (R72, R73). -/
theorem decodeCmd_of_encode {i : Instr} {b0 b1 b2 b3 : Byte} (h : encode i = .cmd b0 b1 b2 b3) :
    decodeCmd b0 b1 b2 b3 = .ok i := by
  cases i <;> cases h <;> rfl

/-- The last two fields of a temperature frame are its ambient and its checksum (R83). -/
theorem tempFields_append {samples : List Half} (h : samples.length = nSamples) (ambient checksum : Half) :
    tempFields (samples ++ [ambient, checksum]) = .ok (.tempFrame samples ambient checksum) := by
  rw [tempFields, List.drop_left' h, List.take_left' h]

/-- A temperature frame of 768 samples decodes to itself, whatever bytes follow it (R83, R85). -/
theorem decodeStream_tempBytes_append {samples : List Half} (h : samples.length = nSamples) (ambient checksum : Half)
    (rest : List Byte) :
    decodeStream (tempBytes samples ambient checksum ++ rest) = .ok (.tempFrame samples ambient checksum, rest) := by
  have hl : (unwords (samples ++ [ambient, checksum])).length = frameSize - 4 := by
    rw [unwords_length, List.length_append, h]; rfl
  have hn : ¬ (unwords (samples ++ [ambient, checksum]) ++ rest).length < frameSize - 4 := by
    rw [List.length_append, hl]; omega
  simp only [tempBytes, List.cons_append, List.nil_append, decodeStream, and_self, not_true_eq_false, if_false,
    le16_lo_hi, if_true, if_neg hn, List.take_left' hl, List.drop_left' hl, words_unwords, tempFields_append h]

/-- An emissivity frame that is no temperature type decodes to itself, whatever bytes follow it (R82, R84, R85). -/
theorem decodeStream_emisBytes_append {value checksum : Byte} (h : ¬ (value = 0x02#8 ∧ checksum = 0x06#8))
    (rest : List Byte) : decodeStream (emisBytes value checksum ++ rest) = .ok (.emisFrame value checksum, rest) := by
  simp [emisBytes, decodeStream, le16_eq_tempType, h]

/-- A well-formed inbound frame decodes to itself, whatever bytes follow it (R82, R85). -/
theorem decodeStream_of_encode {i : Instr} {bytes : List Byte} (hi : i.WellFormed) (h : encode i = .inbound bytes)
    (rest : List Byte) : decodeStream (bytes ++ rest) = .ok (i, rest) := by
  cases i with
  | tempFrame samples ambient checksum =>
    cases h
    exact decodeStream_tempBytes_append ((wellFormed_tempFrame ..).1 hi) ambient checksum rest
  | emisFrame value checksum =>
    cases h
    exact decodeStream_emisBytes_append ((wellFormed_emisFrame ..).1 hi) rest
  | _ => cases h

/-- The bytes at buffer offset 0 decode to the frame found there; what follows is dropped (R85). -/
theorem decode_inbound {bytes rest : List Byte} {i : Instr} (h : decodeStream bytes = .ok (i, rest)) :
    decode (.inbound bytes) = .ok i := by rw [decode, h]

/-- A well-formed operation's transfer decodes to the operation. -/
theorem decode_encode {i : Instr} (hi : i.WellFormed) : decode (encode i) = .ok i := by
  cases h : encode i with
  | req35 w => rw [decode, decodeReq_of_encode h]
  | cmd b0 b1 b2 b3 => exact decodeCmd_of_encode h
  | inbound bytes => exact decode_inbound (by simpa using decodeStream_of_encode hi h [])
  | rx8 | rst | status => cases i <;> cases h; rfl

/-- Settles O45: each format's decoder inverts its encoder, an inbound frame's before any bytes. -/
theorem decodeOfEncode : Obligations.DecodeOfEncode :=
  ⟨fun _ => decode_encode, fun _ _ rest hi h => decodeStream_of_encode hi h rest⟩

/-! ### From a transfer to its operation and back -/

/-- A request word is its selector above its argument (R70). -/
theorem reqWord_extract (w : BitVec 35) : reqWord (w.extractLsb' 32 3) (w.extractLsb' 0 32) = w := by
  apply BitVec.eq_of_toNat_eq
  rw [reqWord_toNat, BitVec.extractLsb'_toNat, BitVec.extractLsb'_toNat]
  simp only [Nat.shiftRight_eq_div_pow]; omega

/-- The eight selectors (R70). -/
theorem selector_cases : ∀ op : BitVec 3, op = 0#3 ∨ op = 1#3 ∨ op = 2#3 ∨ op = 3#3 ∨ op = 4#3 ∨ op = 5#3 ∨
    op = 6#3 ∨ op = 7#3 := by decide

/-- Every request word is the encoding of what it decodes to (R70). -/
theorem encode_decodeReq (w : BitVec 35) : encode (decodeReq w) = .req35 w := by
  rw [← congrArg Transfer.req35 (reqWord_extract w), decodeReq]
  rcases selector_cases (w.extractLsb' 32 3) with h | h | h | h | h | h | h | h <;> rw [h] <;> rfl

/-- What decodes from the bytes at buffer offset 0 is encoded by them, up to the bytes left over (R82, R85). -/
theorem decodeStream_encode {B rest : List Byte} {i : Instr} (h : decodeStream B = .ok (i, rest)) :
    ∃ bytes, encode i = .inbound bytes ∧ B = bytes ++ rest := by
  obtain ⟨_, _, _, rfl, -, hB⟩ | ⟨_, _, rfl, -, hB⟩ := decodeStream_cases h <;> exact ⟨_, rfl, hB⟩

/-- What decodes from the bytes at buffer offset 0 is well formed (R82, R83). -/
theorem decodeStream_wellFormed {B rest : List Byte} {i : Instr} (h : decodeStream B = .ok (i, rest)) :
    i.WellFormed := by
  obtain ⟨_, _, _, rfl, hl, -⟩ | ⟨_, _, rfl, hn, -⟩ := decodeStream_cases h
  · exact (wellFormed_tempFrame ..).2 hl
  · exact (wellFormed_emisFrame ..).2 hn

/-- Only the operands of an inbound frame are checked. -/
theorem wellFormed_of_encode_ne_inbound {i : Instr} (h : ∀ bytes, encode i ≠ .inbound bytes) : i.WellFormed := by
  cases i with
  | tempFrame | emisFrame => exact absurd rfl (h _)
  | _ => rfl

/-- What `decode` answers: outside the inbound path the operation whose encoding the transfer is, and there the frame
at buffer offset 0 (R70, R73, R85). -/
theorem decode_cases {t : Transfer} {i : Instr} (h : decode t = .ok i) :
    (encode i = t ∧ ∀ bytes, t ≠ .inbound bytes) ∨
    ∃ B rest, t = .inbound B ∧ decodeStream B = .ok (i, rest) := by
  cases t with
  | req35 w => cases h; exact .inl ⟨encode_decodeReq w, nofun⟩
  | cmd b0 b1 b2 b3 => exact .inl ⟨decodeCmd_encode h, nofun⟩
  | inbound B =>
    rw [decode] at h
    cases hd : decodeStream B with
    | error e => simp [hd] at h
    | ok r =>
      simp only [hd, Except.ok.injEq] at h
      exact .inr ⟨B, r.2, rfl, by rw [hd, ← h]⟩
  | rx8 | rst | status => cases h; exact .inl ⟨rfl, nofun⟩

/-- Settles O46: each format's encoder inverts its decoder, an inbound frame's up to the bytes left over. -/
theorem encodeOfDecode : Obligations.EncodeOfDecode := by
  refine ⟨fun t i h => ?_, fun _ _ _ => decodeStream_encode⟩
  obtain ⟨he, ht⟩ | ⟨B, rest, rfl, hd⟩ := decode_cases h
  · exact ⟨wellFormed_of_encode_ne_inbound (he ▸ ht), .inl he.symm⟩
  · obtain ⟨bytes, he, rfl⟩ := decodeStream_encode hd
    exact ⟨decodeStream_wellFormed hd, .inr ⟨bytes, rest, he, rfl⟩⟩

/-- Settles O47: the seven words, each by its row of the table. -/
theorem specWordsDecode : Obligations.SpecWordsDecode := by
  unfold Obligations.SpecWordsDecode; decide

end Sys2Proof.Machine
end

section
/-! The response slot along a step: what answers a request, and what RSP may hold (R89, R91, R200, R204). -/

namespace Sys2Proof.Machine

/-- Settles O5: selector 7 is a request row, and its answer is the error record. -/
theorem illegalSelectorResponse : Obligations.IllegalSelectorResponse :=
  fun _ _ h => ⟨rfl, exec_request_of_empty rfl h⟩

/-- A frame of the encoder has its checksum, so it is legal where its payload is (R79, R91). -/
theorem cmdFrame_legal {f : FreqCode} {opcode payload : Byte} (h : LegalPayload f opcode payload) :
    (cmdFrame opcode payload).Legal f := ⟨rfl, h, cs8_toNat ..⟩

/-- BITRATE_CODE has three payloads (R10, R74). -/
theorem bitrateCode_payload {rate : Word} {p : Byte} (h : bitrateCode rate = some p) :
    p = 0x01#8 ∨ p = 0x02#8 ∨ p = 0x03#8 := by
  unfold bitrateCode at h
  split_ifs at h <;> cases h <;> simp

/-- A payload of FREQ_CODE is an entry of the table (R9, R75). -/
theorem freqCode_mem {f : FreqCode} {f2 : Word} {p : Byte} (h : freqCode f f2 = some p) :
    p ∈ [f.half, f.one, f.two, f.four, f.eight] := by
  unfold freqCode at h
  split_ifs at h <;> cases h <;> simp

/-- The emissivity payload is at most 100 (R77). -/
theorem emisPayload_le (arg : Word) : (emisPayload arg).toNat ≤ 100 := by
  have := emisPayload_toNat arg; omega

/-- Whatever answers a request is legal (R91, R200). -/
theorem requestResponse_legal (f : FreqCode) (i : Instr) : (requestResponse f i).Legal f := by
  cases i with
  | setBitrate arg =>
    rw [requestResponse, encodeBitrate]
    cases hp : bitrateCode arg with
    | none => exact .inl ⟨rfl, rfl⟩
    | some p => exact cmdFrame_legal (.inl ⟨rfl, bitrateCode_payload hp⟩)
  | setUpdfreq arg =>
    rw [requestResponse, encodeUpdfreq]
    cases hp : freqCode f arg with
    | none => exact .inr (.inl ⟨rfl, rfl⟩)
    | some p => exact cmdFrame_legal (.inr (.inl ⟨rfl, freqCode_mem hp⟩))
  | query => exact cmdFrame_legal (.inr (.inr (.inl ⟨rfl, .inl rfl⟩)))
  | automatic => exact cmdFrame_legal (.inr (.inr (.inl ⟨rfl, .inr rfl⟩)))
  | setEmis arg => exact cmdFrame_legal (.inr (.inr (.inr (.inl ⟨rfl, emisPayload_le arg⟩))))
  | getEmis => exact cmdFrame_legal (.inr (.inr (.inr (.inr (.inl ⟨rfl, rfl⟩)))))
  | save => exact cmdFrame_legal (.inr (.inr (.inr (.inr (.inr ⟨rfl, rfl⟩)))))
  | illegalOp7 => exact .inr (.inr ⟨rfl, rfl⟩)
  | _ => trivial

/-- Every way a move can leave RSP (R25, R41): as it is, with the answer to the request at the port, or empty. -/
theorem turnEffect_rsp_cases (m : Turn) (s : State) :
    (turnEffect m s).rsp = s.rsp ∨
    (m = .request ∧ s.rsp = .empty ∧ ∃ w, s.host.reqIn.head? = some w ∧
      (turnEffect m s).rsp = requestResponse s.cfg.freqCode (decodeReq w)) ∨
    ((m = .takeResponse ∨ m = .reset) ∧ (turnEffect m s).rsp = .empty) := by
  cases m with
  | request =>
    cases hr : s.host.reqIn with
    | nil => exact .inl (by simp [turnEffect, hr])
    | cons w ws =>
      by_cases he : s.rsp = .empty
      · exact .inr (.inl ⟨rfl, he, w, rfl, by simp [turnEffect, hr, he]⟩)
      · exact .inl (by simp [turnEffect, hr, he])
  | takeResponse => exact .inr (.inr ⟨.inl rfl, takeResponse_rsp s⟩)
  | receive => exact .inl (by simp only [turnEffect]; split <;> [rfl; split <;> rfl])
  | scan =>
    obtain h | ⟨_, _, -, -, -, -, -, h⟩ := turnEffect_scan_cases s
    · exact .inl (by rw [h])
    · exact .inl (by rw [h, State.setInb_rsp])
  | withdrawByte => exact .inl (withdrawByte_rsp s)
  | takeEvent => exact .inl (takeEvent_rsp s)
  | readStatus => exact .inl (readStatus_rsp s)
  | reset => exact .inr (.inr ⟨.inr rfl, resetBlock_rsp s⟩)

/-- Settles O51: a step leaves RSP as it is, empties it, or puts the answer to a request there, under parameters that no
step changes. -/
theorem stepKeepsResponseLegal : Obligations.StepKeepsResponseLegal := by
  intro s t hs hstep
  obtain rfl | ⟨m, -, rfl⟩ := step_next_cases hstep
  · exact hs
  rw [turnEffect_cfg]
  obtain h | ⟨-, -, w, -, h⟩ | ⟨-, h⟩ := turnEffect_rsp_cases m (popTurn s) <;> rw [h]
  · exact hs
  · exact requestResponse_legal _ _
  · trivial

end Sys2Proof.Machine
end

section
/-! The command encoder: what answers each request row, which requests get an error record, and which share a frame
(R100, R103 to R109, R112). -/

namespace Sys2Proof.Machine

/-! ### The code tables (R9, R10) -/

/-- BITRATE_CODE entry by entry (R10, R74). -/
theorem bitrateCode_eq_some_iff {rate : Word} {p : Byte} : bitrateCode rate = some p ↔
    (rate = 9600#32 ∧ p = 0x01#8) ∨ (rate = 115200#32 ∧ p = 0x02#8) ∨ (rate = 460800#32 ∧ p = 0x03#8) := by
  unfold bitrateCode
  split_ifs <;> simp_all [eq_comm]

/-- BITRATE_CODE has no entry for the rates outside the set of R113. -/
theorem bitrateCode_eq_none_iff {rate : Word} : bitrateCode rate = none ↔ rate ∉ bitrateSet := by
  unfold bitrateCode
  split_ifs <;> simp_all [bitrateSet]

/-- Distinct rates have distinct codes (R10). -/
theorem bitrateCode_inj {a b : Word} {p : Byte} (ha : bitrateCode a = some p) (hb : bitrateCode b = some p) :
    a = b := by
  rw [bitrateCode_eq_some_iff] at ha hb
  obtain ⟨rfl, rfl⟩ | ⟨rfl, rfl⟩ | ⟨rfl, rfl⟩ := ha <;> symm <;> simpa using hb

/-- FREQ_CODE entry by entry (R9, R75). -/
theorem freqCode_eq_some_iff {f : FreqCode} {f2 : Word} {p : Byte} : freqCode f f2 = some p ↔
    (f2 = 1#32 ∧ p = f.half) ∨ (f2 = 2#32 ∧ p = f.one) ∨ (f2 = 4#32 ∧ p = f.two) ∨ (f2 = 8#32 ∧ p = f.four) ∨
      (f2 = 16#32 ∧ p = f.eight) := by
  unfold freqCode
  split_ifs <;> simp_all [eq_comm]

/-- FREQ_CODE has no entry for the frequencies outside the set of R113. -/
theorem freqCode_eq_none_iff {f : FreqCode} {f2 : Word} : freqCode f f2 = none ↔ f2 ∉ updfreqSet := by
  unfold freqCode
  split_ifs <;> simp_all [updfreqSet]

/-- A frequency and its code stand at one index of the set of R113 and of the table (R9). -/
theorem freqCode_index {f : FreqCode} {f2 : Word} {p : Byte} (h : freqCode f f2 = some p) :
    ∃ k : Nat, updfreqSet[k]? = some f2 ∧ [f.half, f.one, f.two, f.four, f.eight][k]? = some p := by
  obtain ⟨rfl, rfl⟩ | ⟨rfl, rfl⟩ | ⟨rfl, rfl⟩ | ⟨rfl, rfl⟩ | ⟨rfl, rfl⟩ := freqCode_eq_some_iff.1 h
  exacts [⟨0, rfl, rfl⟩, ⟨1, rfl, rfl⟩, ⟨2, rfl, rfl⟩, ⟨3, rfl, rfl⟩, ⟨4, rfl, rfl⟩]

/-- Under a table of five distinct payloads, distinct frequencies have distinct codes (R112 law 4). -/
theorem freqCode_inj {f : FreqCode} (hf : [f.half, f.one, f.two, f.four, f.eight].Nodup) {a b : Word} {p : Byte}
    (ha : freqCode f a = some p) (hb : freqCode f b = some p) : a = b := by
  obtain ⟨k, hka, hkp⟩ := freqCode_index ha
  obtain ⟨l, hlb, hlp⟩ := freqCode_index hb
  have hk : k < [f.half, f.one, f.two, f.four, f.eight].length := (List.getElem?_eq_some_iff.1 hkp).1
  obtain rfl : k = l := (List.getElem?_inj hk hf).1 (hkp.trans hlp.symm)
  exact Option.some_inj.1 (hka.symm.trans hlb)

/-- Two arguments have one emissivity payload exactly where they clamp alike (R107, R112). -/
theorem emisPayload_eq_iff {a b : Word} :
    emisPayload a = emisPayload b ↔ max 0 (min 100 a.toInt) = max 0 (min 100 b.toInt) := by
  rw [← emisPayload_toNat, ← emisPayload_toNat, Nat.cast_inj, BitVec.toNat_inj]

/-! ### The two requests that can be illegal (R103, R104) -/

/-- A legal rate is answered with the frame of its code (R103). -/
theorem encodeBitrate_of_some {arg : Word} {p : Byte} (h : bitrateCode arg = some p) :
    encodeBitrate arg = cmdFrame 0x15#8 p := by rw [encodeBitrate, h]

/-- Any other rate is answered with INVALID_CONFIG (R103). -/
theorem encodeBitrate_of_none {arg : Word} (h : bitrateCode arg = none) :
    encodeBitrate arg = raiseError invalidConfig infoBitrate := by rw [encodeBitrate, h]

/-- A legal frequency is answered with the frame of its code (R104). -/
theorem encodeUpdfreq_of_some {f : FreqCode} {arg : Word} {p : Byte} (h : freqCode f arg = some p) :
    encodeUpdfreq f arg = cmdFrame 0x25#8 p := by rw [encodeUpdfreq, h]

/-- Any other frequency is answered with INVALID_CONFIG (R104). -/
theorem encodeUpdfreq_of_none {f : FreqCode} {arg : Word} (h : freqCode f arg = none) :
    encodeUpdfreq f arg = raiseError invalidConfig infoUpdfreq := by rw [encodeUpdfreq, h]

/-! ### The answer to each request row -/

/-- Settles O4: the answer is the frame of the clamped argument. -/
theorem setEmisResponse : Obligations.SetEmisResponse := fun arg _ h =>
  ⟨rfl, emisPayload arg, cs8 cmdSync 0x45#8 (emisPayload arg), emisPayload_toNat arg, cs8_toNat ..,
    exec_request_of_empty rfl h⟩

/-- Settles O1: the three rates have their codes, and a rate outside the set has none. -/
theorem setBitrateResponse : Obligations.SetBitrateResponse := by
  intro arg s h
  have hexec : exec (.setBitrate arg) s = .next (s.setRsp (encodeBitrate arg)) := exec_request_of_empty rfl h
  refine ⟨rfl, ?_, ?_, ?_, ?_⟩
  · rintro rfl; exact hexec
  · rintro rfl; exact hexec
  · rintro rfl; exact hexec
  · intro h1 h2 h3
    have hn : bitrateCode arg = none := bitrateCode_eq_none_iff.2 (by simp [bitrateSet, h1, h2, h3])
    rw [hexec, encodeBitrate_of_none hn]; rfl

/-- Settles O2: a legal frequency has its entry of FREQ_CODE, and a frequency outside the set has none. -/
theorem setUpdfreqResponse : Obligations.SetUpdfreqResponse := by
  intro arg s h
  have hexec : exec (.setUpdfreq arg) s = .next (s.setRsp (encodeUpdfreq s.cfg.freqCode arg)) :=
    exec_request_of_empty rfl h
  refine ⟨rfl, fun p hp => ⟨cs8 cmdSync 0x25#8 p, cs8_toNat .., ?_⟩, fun hn => ?_, fun hf ha => ?_⟩
  · rw [hexec, encodeUpdfreq_of_some (freqCode_eq_some_iff.2 hp)]; rfl
  · rw [hexec, encodeUpdfreq_of_none (freqCode_eq_none_iff.2 hn)]; rfl
  · rw [hexec, hf, ha]; rfl

/-- Settles O3: each of the four rows has one answer, the argument ignored. -/
theorem fixedCommandResponses : Obligations.FixedCommandResponses := fun _ _ h =>
  ⟨rfl, rfl, rfl, rfl, exec_request_of_empty rfl h, exec_request_of_empty rfl h, exec_request_of_empty rfl h,
    exec_request_of_empty rfl h⟩

/-! ### The laws of the encoder (R100, R112) -/

/-- Every request row is answered (R100). -/
theorem requestResponse_ne_empty {i : Instr} (hi : isRequest i = true) (f : FreqCode) :
    requestResponse f i ≠ .empty := by
  cases i with
  | setBitrate arg => rw [requestResponse, encodeBitrate]; split <;> exact nofun
  | setUpdfreq arg => rw [requestResponse, encodeUpdfreq]; split <;> exact nofun
  | query | automatic | setEmis | getEmis | save | illegalOp7 => exact nofun
  | _ => cases hi

/-- Settles O7: the answer is a function of FREQ_CODE and the request alone. -/
theorem encoderIsPure : Obligations.EncoderIsPure := by
  intro i s₁ s₂ hi h₁ h₂ hf
  refine ⟨requestResponse s₁.cfg.freqCode i, requestResponse_ne_empty hi _, exec_request_of_empty hi h₁, ?_⟩
  rw [hf]
  exact exec_request_of_empty hi h₂

/-- SET_BITRATE is answered with an error record exactly outside the set of R113. -/
theorem encodeBitrate_eq_error_iff {arg : Word} :
    (∃ code info, encodeBitrate arg = .error code info) ↔ arg ∉ bitrateSet := by
  rw [← bitrateCode_eq_none_iff]
  cases h : bitrateCode arg with
  | none => simp [encodeBitrate_of_none h, raiseError]
  | some p => simp [encodeBitrate_of_some h, cmdFrame]

/-- SET_UPDFREQ is answered with an error record exactly outside the set of R113. -/
theorem encodeUpdfreq_eq_error_iff {f : FreqCode} {arg : Word} :
    (∃ code info, encodeUpdfreq f arg = .error code info) ↔ arg ∉ updfreqSet := by
  rw [← freqCode_eq_none_iff (f := f)]
  cases h : freqCode f arg with
  | none => simp [encodeUpdfreq_of_none h, raiseError]
  | some p => simp [encodeUpdfreq_of_some h, cmdFrame]

/-- The operations answered with an error record (R112 law 3, R201, R204). -/
theorem requestResponse_eq_error_iff (f : FreqCode) (i : Instr) :
    (∃ code info, requestResponse f i = .error code info) ↔
      (∃ a, i = .setBitrate a ∧ a ∉ bitrateSet) ∨ (∃ a, i = .setUpdfreq a ∧ a ∉ updfreqSet) ∨
      (∃ a, i = .illegalOp7 a) := by
  cases i with
  | setBitrate arg => simp [requestResponse, encodeBitrate_eq_error_iff]
  | setUpdfreq arg => simp [requestResponse, encodeUpdfreq_eq_error_iff]
  | illegalOp7 arg => simp [requestResponse, raiseError]
  | _ => simp [requestResponse, cmdFrame]

/-- Settles O8: a legal frame has the sync byte and its checksum, and only the two code tables and selector 7 give an
error record. -/
theorem frameOrErrorByRequest : Obligations.FrameOrErrorByRequest := by
  intro i s t hi he ht
  rw [exec_request_of_empty hi he] at ht
  cases ht
  refine ⟨fun b0 b1 b2 b3 hf => ?_, requestResponse_eq_error_iff _ i⟩
  have hl : (Response.frame b0 b1 b2 b3).Legal s.cfg.freqCode := hf ▸ requestResponse_legal s.cfg.freqCode i
  obtain ⟨hsync, -, hsum⟩ := hl
  exact ⟨hsync, hsum⟩

/-- Which CMD row a request is answered with, and under which code (R74 to R78). -/
inductive AnsweredBy (f : FreqCode) : Instr → Instr → Prop
  | bitrate {a : Word} {p c : Byte} (h : bitrateCode a = some p) : AnsweredBy f (.setBitrate a) (.cmdSetBitrate p c)
  | updfreq {a : Word} {p c : Byte} (h : freqCode f a = some p) : AnsweredBy f (.setUpdfreq a) (.cmdSetUpdfreq p c)
  | query (a : Word) : AnsweredBy f (.query a) .cmdQuery
  | automatic (a : Word) : AnsweredBy f (.automatic a) .cmdAutomatic
  | emis {a : Word} {p c : Byte} (h : emisPayload a = p) : AnsweredBy f (.setEmis a) (.cmdSetEmis p c)
  | getEmis (a : Word) : AnsweredBy f (.getEmis a) .cmdGetEmis
  | save (a : Word) : AnsweredBy f (.save a) .cmdSave

/-- The frame that answers a request decodes to the CMD row of that request (R73). -/
theorem answeredBy_of_frame {f : FreqCode} {i : Instr} {b0 b1 b2 b3 : Byte}
    (h : requestResponse f i = .frame b0 b1 b2 b3) : ∃ k, decodeCmd b0 b1 b2 b3 = .ok k ∧ AnsweredBy f i k := by
  cases i with
  | setBitrate arg =>
    cases hp : bitrateCode arg with
    | none => rw [requestResponse, encodeBitrate_of_none hp] at h; cases h
    | some p =>
      rw [requestResponse, encodeBitrate_of_some hp] at h; cases h
      exact ⟨_, rfl, .bitrate hp⟩
  | setUpdfreq arg =>
    cases hp : freqCode f arg with
    | none => rw [requestResponse, encodeUpdfreq_of_none hp] at h; cases h
    | some p =>
      rw [requestResponse, encodeUpdfreq_of_some hp] at h; cases h
      exact ⟨_, rfl, .updfreq hp⟩
  | query arg => cases h; exact ⟨_, rfl, .query arg⟩
  | automatic arg => cases h; exact ⟨_, rfl, .automatic arg⟩
  | setEmis arg => cases h; exact ⟨_, rfl, .emis rfl⟩
  | getEmis arg => cases h; exact ⟨_, rfl, .getEmis arg⟩
  | save arg => cases h; exact ⟨_, rfl, .save arg⟩
  | _ => cases h

/-- Settles O9: one frame is one CMD row, and a row answers one command, each code table being injective. -/
theorem encoderInjective : Obligations.EncoderInjective := by
  intro i j s t u b0 b1 b2 b3 hi hj he hnd ht hu hft hfu
  rw [exec_request_of_empty hi he] at ht
  rw [exec_request_of_empty hj he] at hu
  cases ht
  cases hu
  obtain ⟨k, hk, hik⟩ := answeredBy_of_frame hft
  obtain ⟨l, hl, hjl⟩ := answeredBy_of_frame hfu
  obtain rfl : k = l := by simpa [hk] using hl
  cases hik with
  | bitrate ha => cases hjl with | bitrate hb => exact .inl ⟨_, rfl, by rw [bitrateCode_inj ha hb]⟩
  | updfreq ha => cases hjl with | updfreq hb => exact .inr (.inl ⟨_, rfl, by rw [freqCode_inj hnd ha hb]⟩)
  | query a => cases hjl with | query b => simp
  | automatic a => cases hjl with | automatic b => simp
  | getEmis a => cases hjl with | getEmis b => simp
  | save a => cases hjl with | save b => simp
  | emis ha => cases hjl with | emis hb => simpa using emisPayload_eq_iff.1 (ha.trans hb.symm)

end Sys2Proof.Machine
end

section
/-! The clamp law and the reference conversion of an emissivity (R107, R111, R112). -/

namespace Sys2Proof.Machine

/-- Arguments with one payload are one command (R107). -/
theorem exec_setEmis_congr {a b : Word} (h : max 0 (min 100 a.toInt) = max 0 (min 100 b.toInt)) (s : State) :
    exec (.setEmis a) s = exec (.setEmis b) s := by
  rw [exec_request rfl, exec_request rfl, requestResponse, requestResponse, emisPayload_eq_iff.2 h]

/-- `clamp` on rationals in the lattice's terms (R15). -/
theorem clampRat_eq {lo hi : ℚ} (h : lo ≤ hi) (x : ℚ) : clampRat x lo hi = max lo (min hi x) := by
  unfold clampRat
  split_ifs with hlo hhi
  · rw [min_eq_right (hlo.le.trans h), max_eq_left hlo.le]
  · rw [min_eq_left hhi.le, max_eq_right h]
  · rw [min_eq_right (not_lt.1 hhi), max_eq_right (not_lt.1 hlo)]

/-- The reference conversion rounds the clamped fraction half up (R111). -/
theorem emisHundredths_eq_floor_clamp (v : ℚ) : emisHundredths v = ⌊100 * max 0 (min 1 v) + 1 / 2⌋ := by
  rw [emisHundredths, clampRat_eq zero_le_one]; rfl

/-- Rounding and clamping commute, the floor being monotone (R111). -/
theorem emisHundredths_eq_clamp_floor (v : ℚ) : emisHundredths v = max 0 (min 100 ⌊100 * v + 1 / 2⌋) := by
  have hclamp : 100 * max 0 (min 1 v) + 1 / 2 = max (1 / 2) (min (100 + 1 / 2) (100 * v + 1 / 2)) := by
    rw [mul_max_of_nonneg _ _ (by norm_num), mul_min_of_nonneg _ _ (by norm_num), ← max_add_add_right,
      ← min_add_add_right]
    norm_num
  have hlo : ⌊(1 / 2 : ℚ)⌋ = 0 := by norm_num
  have hhi : ⌊(100 + 1 / 2 : ℚ)⌋ = 100 := by norm_num
  rw [emisHundredths_eq_floor_clamp, hclamp, Int.floor_mono.map_max, Int.floor_mono.map_min, hlo, hhi]

/-- Settles O11: the two forms, and the range that the outer clamp gives. -/
theorem emisHundredthsRoundsHalfUp : Obligations.EmisHundredthsRoundsHalfUp := by
  intro v
  have h := emisHundredths_eq_clamp_floor v
  exact ⟨emisHundredths_eq_floor_clamp v, h, by omega, by omega⟩

/-- Settles O10: an argument's command is that of its clamped value, and a fraction is clamped before it is rounded. -/
theorem emissivityClampLaw : Obligations.EmissivityClampLaw := by
  refine ⟨fun a s h => exec_setEmis_congr ?_ s, fun a s h => exec_setEmis_congr ?_ s, fun v h => ?_, fun v h => ?_⟩
  · have h0 : (0#32).toInt = 0 := rfl
    omega
  · have h100 : (100#32).toInt = 100 := rfl
    omega
  · rw [emisHundredths_eq_floor_clamp, min_eq_right (by linarith), max_eq_left h.le]; norm_num
  · rw [emisHundredths_eq_floor_clamp, min_eq_left h.le, max_eq_right zero_le_one]; norm_num

end Sys2Proof.Machine
end

section
/-! The run to quiescence as a function of the bytes (R160, R162): an advancing decision does not depend on the bytes
after its frame, so the run over a stream is the run over its first part and then over what that run leaves with the
rest. -/

namespace Sys2Proof.Machine

/-! ### Bytes after the buffer do not change a read or an advancing decision -/

/-- A read below LEN sees no byte after it (R16). -/
theorem memRead_append {B : List Byte} {o n : Nat} (h : o + n ≤ B.length) (C : List Byte) :
    memRead (B ++ C) o n = memRead B o n := by
  rw [memRead_ok h, memRead_ok (by rw [List.length_append]; omega), List.drop_append_of_le_length (by omega),
    List.take_append_of_le_length (by rw [List.length_drop]; omega)]

theorem readByte_append {B : List Byte} {o : Nat} (h : o + 1 ≤ B.length) (C : List Byte) :
    readByte (B ++ C) o = readByte B o := by rw [readByte, readByte, memRead_append h]

theorem readHalf_append {B : List Byte} {o : Nat} (h : o + 2 ≤ B.length) (C : List Byte) :
    readHalf (B ++ C) o = readHalf B o := by rw [readHalf, readHalf, memRead_append h]

theorem wordAt_append {B : List Byte} {o : Nat} (h : o + 2 ≤ B.length) (C : List Byte) :
    wordAt (B ++ C) o = wordAt B o := by
  obtain ⟨lo, hi, hlo, hhi⟩ := exists_two_bytes h
  rw [wordAt, wordAt, List.drop_append_of_le_length (by omega), drop_eq_two hlo hhi, List.cons_append, List.cons_append]

/-- DECIDE never faults (R164). -/
theorem exists_decision (B : List Byte) : ∃ d, decision B = .ok d := by
  obtain ⟨h, -⟩ | ⟨-, h | h | h⟩ | ⟨h, -⟩ | ⟨-, h | h⟩ := decision_cases B <;> exact ⟨_, h⟩

/-- A decision advances exactly when the buffer is not quiescent (R28, R150). -/
theorem decision_adv_eq_zero_iff {B : List Byte} {d : Decision} (h : decision B = .ok d) :
    d.adv = 0 ↔ quiescent B = true := by
  rw [adv_eq_zero, quiescent_iff_decision, h, Except.ok.injEq, Except.ok.injEq]

/-- Off quiescence every read of DECIDE lies in the buffer, so bytes after it change nothing (R162 step 1). -/
theorem decision_append {B : List Byte} (hq : quiescent B = false) (C : List Byte) :
    decision (B ++ C) = decision B := by
  rw [← Bool.not_eq_true] at hq
  obtain hs | ⟨b0, b1, b2, b3, rest, rfl⟩ := short_or_cons B
  · exact absurd ((quiescent_iff_decision B).2 (.inl (decision_short hs))) hq
  rw [quiescent_cons] at hq
  simp only [List.cons_append, decision_cons]
  by_cases hh : b0 = hdrByte ∧ b1 = hdrByte
  · by_cases ht : b2 = 0x02#8 ∧ b3 = 0x06#8
    · have hl : 1540 ≤ rest.length := not_lt.1 fun hl => hq ⟨hh, ht, hl⟩
      have hword := wordAt_append (B := b0 :: b1 :: b2 :: b3 :: rest) (o := checksumOffset)
        (Nat.add_le_add_right hl 4) C
      have hframe := List.take_append_of_le_length (l₁ := b0 :: b1 :: b2 :: b3 :: rest) (l₂ := C) (i := frameSize)
        (Nat.add_le_add_right hl 4)
      have hlen : ¬ rest.length < 1540 ∧ ¬ (rest ++ C).length < 1540 := by rw [List.length_append]; omega
      simp only [List.cons_append] at hword hframe
      simp only [hword, hframe, if_neg hlen.1, if_neg hlen.2]
    · simp only [if_neg ht]
  · simp only [if_pos hh]

/-- The record of a decision depends on the bytes it discards alone (R162 step 2). -/
theorem eventOf_append {B : List Byte} {d : Decision} (h : d.adv ≤ B.length) (C : List Byte) :
    eventOf d (B ++ C) = eventOf d B := by
  cases d with
  | tempAccept =>
    change 1544 ≤ B.length at h
    rw [eventOf, eventOf, decodeTemp, decodeTemp, memRead_append (by simpa [frameSize] using h),
      readHalf_append (by simp only [ambientOffset]; omega)]
  | emisAccept =>
    change 4 ≤ B.length at h
    rw [eventOf, eventOf, decodeEmis, decodeEmis, readByte_append (by omega)]
  | short | resync | tempWait | tempReject | emisReject => rfl

/-! ### One decision on a buffer alone -/

/-- Everything one decision on a buffer can do: nothing when the buffer is quiescent, else its advance is discarded
(R150, R152). -/
theorem scanBytes_cases (B : List Byte) :
    (quiescent B = true ∧ scanBytes B = none) ∨
    (quiescent B = false ∧ ∃ d ev, decision B = .ok d ∧ eventOf d B = .ok ev ∧ d.adv ≠ 0 ∧ d.adv ≤ B.length ∧
      scanBytes B = some (ev, B.drop d.adv)) := by
  obtain ⟨d, hd⟩ := exists_decision B
  obtain ⟨ev, hev, -⟩ := eventOf_ok hd
  by_cases h0 : d.adv = 0
  · exact .inl ⟨(decision_adv_eq_zero_iff hd).1 h0, by simp [scanBytes, hd, h0]⟩
  · refine .inr ⟨?_, d, ev, hd, hev, h0, adv_le hd, by simp [scanBytes, hd, hev, h0]⟩
    rwa [decision_adv_eq_zero_iff hd, Bool.not_eq_true] at h0

/-- A buffer that no decision advances is quiescent (R150). -/
theorem scanBytes_eq_none_iff {B : List Byte} : scanBytes B = none ↔ quiescent B = true := by
  obtain ⟨hq, h⟩ | ⟨hq, d, ev, -, -, -, -, h⟩ := scanBytes_cases B <;> simp [hq, h]

/-- An advancing decision makes the buffer shorter (R160). -/
theorem scanBytes_length_lt {B rest : List Byte} {ev : Option Event} (h : scanBytes B = some (ev, rest)) :
    rest.length < B.length := by
  obtain ⟨-, h'⟩ | ⟨-, d, ev', -, -, h0, hle, h'⟩ := scanBytes_cases B <;> rw [h'] at h <;> cases h
  rw [List.length_drop]; omega

/-- Bytes after the buffer stay after what an advancing decision leaves (R162). -/
theorem scanBytes_append {B rest : List Byte} {ev : Option Event} (h : scanBytes B = some (ev, rest)) (C : List Byte) :
    scanBytes (B ++ C) = some (ev, rest ++ C) := by
  obtain ⟨-, h'⟩ | ⟨hq, d, ev', hd, hev, h0, hle, h'⟩ := scanBytes_cases B <;> rw [h'] at h <;> cases h
  simp [scanBytes, decision_append hq, hd, eventOf_append hle, hev, h0, List.drop_append_of_le_length hle]

/-! ### The run to quiescence -/

/-- Any two amounts of fuel that suffice give the same run: each decision takes a byte at least (R160). -/
theorem runBytes_congr_fuel {f g : Nat} {B : List Byte} (hf : B.length ≤ f) (hg : B.length ≤ g) :
    runBytes f B = runBytes g B := by
  induction f generalizing g B with
  | zero =>
    obtain rfl : B = [] := List.length_eq_zero_iff.1 (Nat.le_zero.1 hf)
    cases g <;> rfl
  | succ f ih =>
    cases g with
    | zero =>
      obtain rfl : B = [] := List.length_eq_zero_iff.1 (Nat.le_zero.1 hg)
      rfl
    | succ g =>
      cases h : scanBytes B with
      | none => simp [runBytes, h]
      | some r =>
        have hlt := scanBytes_length_lt h
        have hrun : runBytes f r.2 = runBytes g r.2 := ih (by omega) (by omega)
        simp [runBytes, h, hrun]

/-- Fuel beyond LEN changes nothing (R160). -/
theorem runBytes_of_length_le {fuel : Nat} {B : List Byte} (h : B.length ≤ fuel) : runBytes fuel B = scanAll B :=
  runBytes_congr_fuel h le_rfl

/-- A quiescent buffer is left as it is. -/
theorem scanAll_of_quiescent {B : List Byte} (h : quiescent B = true) : scanAll B = ([], B) := by
  have hn := scanBytes_eq_none_iff.2 h
  unfold scanAll
  cases B.length <;> simp [runBytes, hn]

/-- The run is an advancing decision and then the run on what it leaves (R160). -/
theorem scanAll_of_scanBytes {B rest : List Byte} {ev : Option Event} (h : scanBytes B = some (ev, rest)) :
    scanAll B = (ev.toList ++ (scanAll rest).1, (scanAll rest).2) := by
  have hlt := scanBytes_length_lt h
  rw [← runBytes_of_length_le B.length.le_succ]
  simp [runBytes, h, runBytes_of_length_le hlt.le]

/-- Induction along the run: a property of the quiescent buffers that each advancing decision carries back holds of
every buffer (R160). -/
theorem scanBytes_induction {P : List Byte → Prop} (quiet : ∀ B, quiescent B = true → P B)
    (advance : ∀ B ev rest, scanBytes B = some (ev, rest) → P rest → P B) (B : List Byte) : P B := by
  induction hl : B.length using Nat.strong_induction_on generalizing B with
  | _ l ih =>
    cases h : scanBytes B with
    | none => exact quiet B (scanBytes_eq_none_iff.1 h)
    | some r => exact advance B r.1 r.2 h (ih _ (hl ▸ scanBytes_length_lt h) r.2 rfl)

/-- The run ends in a quiescent buffer (R160). -/
theorem scanAll_quiescent (B : List Byte) : quiescent (scanAll B).2 = true := by
  induction B using scanBytes_induction with
  | quiet B hq => rwa [scanAll_of_quiescent hq]
  | advance B ev rest h ih => rwa [scanAll_of_scanBytes h]

/-- The run over a stream is the run over its first part, then the run over what is left with the rest (R162). -/
theorem scanAll_append (B C : List Byte) :
    scanAll (B ++ C) =
      ((scanAll B).1 ++ (scanAll ((scanAll B).2 ++ C)).1, (scanAll ((scanAll B).2 ++ C)).2) := by
  induction B using scanBytes_induction with
  | quiet B hq => simp [scanAll_of_quiescent hq]
  | advance B ev rest h ih =>
    rw [scanAll_of_scanBytes (scanBytes_append h C), ih, scanAll_of_scanBytes h, List.append_assoc]

/-- Settles O35, by induction on the chunk: each pushed byte is the first part of the stream that is left. -/
theorem chunkingDoesNotMatter : Obligations.ChunkingDoesNotMatter := by
  intro B C hq
  induction C generalizing B with
  | nil => rw [feed, List.append_nil, scanAll_of_quiescent hq]
  | cons c C ih =>
    rw [feed, ih _ (scanAll_quiescent _), List.append_cons B c C, scanAll_append (B ++ [c]) C]

end Sys2Proof.Machine
end

section
/-! The reassembly buffer: PUSH (R130, R131), COMPACT (R132), the status word (R135), and which moves change the buffer
(R28, R136). -/

namespace Sys2Proof.Machine

/-! ### PUSH -/

/-- A byte presented to a quiescent buffer is pushed (R130). -/
theorem exec_rxPush_of_quiescent {s : State} (h : quiescent s.inb.buf = true) (b : Byte) :
    exec (.rxPush b) s = .next (s.setInb (pushByte s.cfg.cap s.inb b)) := if_pos h

/-- A byte presented while a SCAN step may be enabled waits (R34, R130). -/
theorem exec_rxPush_of_not_quiescent {s : State} (h : quiescent s.inb.buf = false) (b : Byte) :
    exec (.rxPush b) s = .next s := if_neg (by rw [rxReady, h]; decide)

/-- Settles O16: below CAP, at CAP, and while the buffer is not quiescent. The name `pushByte` is the model's own. -/
theorem pushByteRule : Obligations.PushByte := by
  intro b s
  refine ⟨fun hq hl => ?_, fun hq hl => ?_, fun hq => exec_rxPush_of_not_quiescent hq b⟩
  · rw [exec_rxPush_of_quiescent hq, pushByte_of_lt hl]; rfl
  · rw [exec_rxPush_of_quiescent hq, pushByte_of_le hl]; rfl

/-- A SCAN step raises LEN in no case: it leaves the buffer or discards bytes of it (R152). -/
theorem turnEffect_scan_length_le (s : State) : (turnEffect .scan s).inb.buf.length ≤ s.inb.buf.length := by
  obtain h | ⟨d, ev, -, -, -, -, -, h⟩ := turnEffect_scan_cases s
  · rw [h]
  · simp [h]

/-- Settles O17: a quiescent buffer holds less than a temperature frame, so there is room for one byte more. -/
theorem pushNeverOverflows : Obligations.PushNeverOverflows := by
  intro b s hcap
  constructor
  · intro hq
    have hfill : s.inb.buf.length < 1544 := quiescent_length_lt hq
    have hroom : s.inb.buf.length < s.cfg.cap := hfill.trans_le hcap
    refine ⟨hroom, _, exec_rxPush_of_quiescent hq b, ?_⟩
    rw [State.setInb_inb, pushByte_of_lt hroom]
    exact ⟨rfl, by simpa using hfill, rfl⟩
  · intro t ht
    rw [scan_effect] at ht
    cases ht
    exact turnEffect_scan_length_le s

/-! ### COMPACT's loop -/

/-- A pass of the loop where BUF has the byte it reads (R132). -/
theorem moveByte_of_getElem? {BUF : List Byte} {k j : Nat} {b : Byte} (h : BUF[j + k]? = some b) :
    moveByte k BUF j = BUF.set j b := by rw [moveByte, h]

/-- After `m` passes of R132's loop the first `m` bytes are those from offset `k` on, and the bytes above are the old
ones: the loop reads at `m + k`, which it has not written yet. -/
theorem foldl_moveByte (BUF : List Byte) (k m : Nat) (h : m + k ≤ BUF.length) :
    (List.range m).foldl (moveByte k) BUF = (BUF.drop k).take m ++ BUF.drop m := by
  induction m with
  | zero => simp
  | succ m ih =>
    have hlen : ((BUF.drop k).take m).length = m := by rw [List.length_take, List.length_drop]; omega
    have hread : ((BUF.drop k).take m ++ BUF.drop m)[m + k]? = some BUF[m + k] := by
      rw [List.getElem?_append_right (by omega), hlen, List.getElem?_drop]
      simp
    have hmoved : (BUF.drop k).take (m + 1) = (BUF.drop k).take m ++ [BUF[m + k]] := by
      rw [List.take_succ_eq_append_getElem (by rw [List.length_drop]; omega), List.getElem_drop]
      simp only [Nat.add_comm k m]
    calc (List.range (m + 1)).foldl (moveByte k) BUF
      _ = moveByte k ((BUF.drop k).take m ++ BUF.drop m) m := by
        rw [List.range_succ, List.foldl_append, ih (by omega), List.foldl_cons, List.foldl_nil]
      _ = (BUF.drop k).take m ++ (BUF.drop m).set 0 BUF[m + k] := by
        rw [moveByte_of_getElem? hread, List.set_append_right _ _ hlen.le, hlen, Nat.sub_self]
      _ = (BUF.drop k).take (m + 1) ++ BUF.drop (m + 1) := by
        rw [hmoved, List.append_assoc, List.singleton_append, List.drop_eq_getElem_cons (i := m) (by omega),
          List.set_cons_zero]

/-- The loop's result: the bytes from offset `k` on moved down, BUF unchanged from offset LEN − k on (R132). -/
theorem moveDown_eq {BUF : List Byte} {k len : Nat} (hk : k ≤ len) (hlen : len ≤ BUF.length) :
    moveDown BUF k len = (BUF.drop k).take (len - k) ++ BUF.drop (len - k) :=
  foldl_moveByte BUF k (len - k) (by omega)

/-- Settles O60: `compact` drops the first `k` bytes, and these are the bytes the loop has moved down. -/
theorem compactLoopKeepsBytes : Obligations.CompactLoopKeepsBytes := by
  intro BUF k len n _ hk hlen hbuf
  have hfill : n.buf.length = len := by rw [hbuf, List.length_take_of_le hlen]
  refine ⟨?_, _, compact_ok (hfill ▸ hk), rfl, by simp [hfill], ?_⟩
  · rw [moveDown_eq hk hlen]; simp; omega
  · rw [moveDown_eq hk hlen, List.take_left' (by simp; omega), hbuf, List.drop_take]

/-! ### The status word -/

/-- A bit of a word by the word's value. -/
theorem getLsbD_of_div_mod {w : Word} {i : Nat} {b : Bool} (h : w.toNat / 2 ^ i % 2 = b.toNat) : w.getLsbD i = b := by
  rw [BitVec.getLsbD, Nat.testBit_eq_decide_div_mod_eq, h]
  cases b <;> rfl

/-- The fields of the status word read off its value: no field reaches into another (R36). -/
theorem statusWord_fields (s : State) :
    (statusWord s).toNat % 2 ^ 16 = s.inb.buf.length % 2 ^ 16 ∧
    (statusWord s).toNat / 2 ^ 16 % 2 = s.inb.ovf.toNat ∧
    (statusWord s).toNat / 2 ^ 17 % 2 = (quiescent s.inb.buf).toNat ∧
    (statusWord s).toNat / 2 ^ 18 % 2 = (waiting s.inb.buf).toNat ∧
    (statusWord s).toNat / 2 ^ 19 % 2 = (evPending s).toNat ∧
    (statusWord s).toNat / 2 ^ 20 % 2 = (rspFull s).toNat ∧
    (statusWord s).toNat / 2 ^ 21 = 0 := by
  have := s.inb.ovf.toNat_le
  have := (quiescent s.inb.buf).toNat_le
  have := (waiting s.inb.buf).toNat_le
  have := (evPending s).toNat_le
  have := (rspFull s).toNat_le
  rw [statusWord, BitVec.toNat_ofNat]
  omega

theorem evPending_eq (s : State) : evPending s = decide (s.inb.evq ≠ []) := by
  cases h : s.inb.evq <;> simp [evPending, h]

theorem rspFull_eq (s : State) : rspFull s = decide (s.rsp ≠ .empty) := by
  cases h : s.rsp <;> simp [rspFull, h]

/-- Settles O20: FILL_LEN is LEN in full, which CAP bounds, and each flag stands at its bit. -/
theorem statusWordLayout : Obligations.StatusWordLayout := by
  intro s hcfg hfill
  obtain ⟨-, hcap, -⟩ := hcfg
  obtain ⟨hlen, hovf, hquiet, hwait, hev, hrsp, hreserved⟩ := statusWord_fields s
  rw [← evPending_eq, ← rspFull_eq]
  refine ⟨statusWord s, rfl, ?_, getLsbD_of_div_mod hovf, getLsbD_of_div_mod hquiet, getLsbD_of_div_mod hwait,
    getLsbD_of_div_mod hev, getLsbD_of_div_mod hrsp, ?_⟩
  · rw [BitVec.extractLsb'_toNat, Nat.shiftRight_zero, hlen, Nat.mod_eq_of_lt (by omega)]
  · apply BitVec.eq_of_toNat_eq
    rw [BitVec.extractLsb'_toNat, Nat.shiftRight_eq_div_pow, hreserved]
    rfl

/-! ### What changes the buffer -/

/-- The advance of a decision (R28). -/
theorem adv_cases (d : Decision) : d.adv = 0 ∨ d.adv = 1 ∨ d.adv = 4 ∨ d.adv = 1544 := by
  cases d <;> simp [Decision.adv]

@[simp] theorem pushByte_posCount (cap : Nat) (n : Inbound) (b : Byte) : (pushByte cap n b).posCount = n.posCount := by
  unfold pushByte; split <;> rfl

/-- A byte pushed is appended or dropped (R130). -/
theorem pushByte_buf_cases (cap : Nat) (n : Inbound) (b : Byte) :
    (pushByte cap n b).buf = n.buf ∨ (pushByte cap n b).buf = n.buf ++ [b] := by
  unfold pushByte; split
  · exact .inr rfl
  · exact .inl rfl

/-- The host's move on the receive port pushes the byte at the head of what it presents (R34). -/
theorem turnEffect_receive_inb {s : State} {b : Byte} {bs : List Byte} (h : s.host.rxIn = b :: bs)
    (hq : quiescent s.inb.buf = true) : (turnEffect .receive s).inb = pushByte s.cfg.cap s.inb b := by
  simp [turnEffect, h, hq]

/-- Settles O55: each move that writes the inbound path pushes, compacts by its decision's advance, or resets. -/
theorem bufferChangesOnlyBy : Obligations.BufferChangesOnlyBy := by
  intro s t m hm hstep
  rw [step_some hm] at hstep
  cases hstep
  obtain hi | ⟨rfl, hne, hq, -, -⟩ | ⟨hs, d, ev, -, hle, -, hi⟩ | ⟨-, hi⟩ | ⟨hr, hi⟩ :=
    turnEffect_inb_cases m (popTurn s)
  · exact .inl (by simp [hi])
  · obtain ⟨b, bs, hb⟩ := List.exists_cons_of_ne_nil hne
    rw [turnEffect_receive_inb hb hq, pushByte_posCount]
    obtain hbuf | hbuf := pushByte_buf_cases (popTurn s).cfg.cap (popTurn s).inb b <;> rw [hbuf]
    · exact .inl ⟨rfl, .inl rfl⟩
    · exact .inr (.inl ⟨rfl, ⟨b, by rw [← popTurn_rxIn, hb]; rfl, rfl⟩, rfl⟩)
  · rw [hi, scanned_buf, scanned_posCount]
    obtain h0 | hk := adv_cases d
    · exact .inl (by simp [h0])
    · exact .inr (.inr (.inl ⟨hs, d.adv, hk, hle, rfl, rfl⟩))
  · exact .inl (by simp [hi])
  · exact .inr (.inr (.inr ⟨hr, by rw [hi]; exact ⟨rfl, rfl⟩⟩))

end Sys2Proof.Machine
end

section
/-! Runs of the scanner: the stream function law move by move (R162), the end of a run (R160), and the source's cursor
form (R167). -/

namespace Sys2Proof.Machine

/-! ### The stream function law -/

/-- The yield of a state is a function of the records it has given and of the bytes that it holds or is presented. -/
theorem yield_eq_of {s t : State} (he : t.host.evOut ++ t.inb.evq = s.host.evOut ++ s.inb.evq)
    (hb : t.inb.buf ++ t.host.rxIn = s.inb.buf ++ s.host.rxIn) : t.yield = s.yield := by
  rw [State.yield, State.yield, he, hb]

/-- The bytes presented leave by a receive or by a withdrawal alone (R34, R235). -/
theorem turnEffect_rxIn {m : Turn} (hr : m ≠ .receive) (hw : m ≠ .withdrawByte) (s : State) :
    (turnEffect m s).host.rxIn = s.host.rxIn := by
  cases m with
  | receive => exact absurd rfl hr
  | withdrawByte => exact absurd rfl hw
  | request => simp only [turnEffect]; split <;> [rfl; split <;> rfl]
  | takeResponse => simp only [turnEffect, takeResponse]; split <;> rfl
  | scan => simp only [turnEffect]; split <;> rfl
  | takeEvent => simp only [turnEffect, takeEvent]; split <;> rfl
  | readStatus | reset => rfl

/-- A byte that is received goes from the port to the end of the buffer: a quiescent buffer has room for it (R130,
R131). -/
theorem turnEffect_receive_yield {s : State} (hcap : 1544 ≤ s.cfg.cap) : (turnEffect .receive s).yield = s.yield := by
  cases hr : s.host.rxIn with
  | nil => simp [turnEffect, hr]
  | cons b bs =>
    by_cases hq : quiescent s.inb.buf = true
    · have hroom : s.inb.buf.length < s.cfg.cap := (quiescent_length_lt hq).trans_le hcap
      apply yield_eq_of <;> simp [turnEffect, hr, hq, pushByte_of_lt hroom]
    · simp [turnEffect, hr, hq]

/-- An advancing decision gives the first record of the run to quiescence and leaves the bytes of the rest of that run,
whatever bytes are still presented (R162 step 3). -/
theorem scanned_yield {s : State} {d : Decision} {ev : Option Event} (hd : decision s.inb.buf = .ok d)
    (he : eventOf d s.inb.buf = .ok ev) (h0 : d.adv ≠ 0) :
    (s.setInb (scanned s.cfg d ev s.inb)).yield = s.yield := by
  have hone : scanBytes s.inb.buf = some (ev, s.inb.buf.drop d.adv) := by simp [scanBytes, hd, he, h0]
  simp [State.yield, scanAll_of_scanBytes (scanBytes_append hone s.host.rxIn)]

/-- The moves of the command path and the read of STATUS leave the inbound path (R41, R135). -/
theorem turnEffect_inb_eq {m : Turn} (hr : m ≠ .receive) (hs : m ≠ .scan) (he : m ≠ .takeEvent) (hz : m ≠ .reset)
    (s : State) : (turnEffect m s).inb = s.inb := by
  obtain h | ⟨h, -⟩ | ⟨h, -⟩ | ⟨h, -⟩ | ⟨h, -⟩ := turnEffect_inb_cases m s
  · exact h
  · exact absurd h hr
  · exact absurd h hs
  · exact absurd h he
  · exact absurd h hz

/-- A move that changes neither the inbound path nor what the host presents or is handed keeps the yield. -/
theorem yield_eq_of_inb {s t : State} (hi : t.inb = s.inb) (ho : t.host.evOut = s.host.evOut)
    (hx : t.host.rxIn = s.host.rxIn) : t.yield = s.yield := yield_eq_of (by rw [hi, ho]) (by rw [hi, hx])

/-- Every move but RESET and a withdrawal keeps the yield. -/
theorem turnEffect_yield {m : Turn} {s : State} (hcap : 1544 ≤ s.cfg.cap) (hr : m ≠ .reset) (hw : m ≠ .withdrawByte) :
    (turnEffect m s).yield = s.yield := by
  cases m with
  | reset => exact absurd rfl hr
  | withdrawByte => exact absurd rfl hw
  | receive => exact turnEffect_receive_yield hcap
  | scan =>
    obtain h | ⟨d, ev, hd, he, h0, -, -, h⟩ := turnEffect_scan_cases s <;> rw [h]
    exact scanned_yield hd he h0
  | takeEvent =>
    have hbuf : (turnEffect .takeEvent s).inb.buf = s.inb.buf := by rw [turnEffect, takeEvent_inb]
    have hrx : (turnEffect .takeEvent s).host.rxIn = s.host.rxIn := turnEffect_rxIn (by decide) hw s
    exact yield_eq_of (takeEvent_evOut_append_evq s) (by rw [hbuf, hrx])
  | request | takeResponse | readStatus =>
    exact yield_eq_of_inb (turnEffect_inb_eq (by decide) (by decide) (by decide) hr s)
      (turnEffect_evOut (by decide) s) (turnEffect_rxIn (by decide) hw s)

/-- Settles O36: a step is the effect of its move, and no move but the two excluded ones changes the yield. -/
theorem yieldConserved : Obligations.YieldConserved := by
  intro s t m hcap hm hr hw hstep
  rw [step_some hm] at hstep
  cases hstep
  exact turnEffect_yield (s := popTurn s) hcap hr hw

/-! ### The end of a run, and the cursor form -/

/-- A run leaves an end part of the buffer (R160). -/
theorem scanAll_suffix (B : List Byte) : (scanAll B).2 <:+ B := by
  induction B using scanBytes_induction with
  | quiet B hq => rw [scanAll_of_quiescent hq]
  | advance B ev rest h ih =>
    obtain ⟨-, h'⟩ | ⟨-, d, ev', -, -, -, -, h'⟩ := scanBytes_cases B <;> rw [h'] at h <;> cases h
    rw [scanAll_of_scanBytes h']
    exact ih.trans (List.drop_suffix ..)

/-- Settles O34: the run ends quiescent, in an end part of the buffer, and LEN decisions suffice. -/
theorem runReachesQuiescence : Obligations.RunReachesQuiescence := fun B =>
  ⟨scanAll_quiescent B, scanAll_suffix B, fun _ => runBytes_of_length_le⟩

/-- A cursor at `i` runs as a buffer whose first `i` bytes have been discarded (R167). -/
theorem runCursor_eq_runBytes (fuel : Nat) (B : List Byte) (i : Nat) :
    runCursor fuel B i = runBytes fuel (B.drop i) := by
  induction fuel generalizing i with
  | zero => rfl
  | succ fuel ih =>
    obtain ⟨d, hd⟩ := exists_decision (B.drop i)
    obtain ⟨ev, hev, -⟩ := eventOf_ok hd
    by_cases h0 : d.adv = 0
    · simp [runCursor, runBytes, scanBytes, hd, h0]
    · simp [runCursor, runBytes, scanBytes, hd, hev, h0, ih]

/-- Settles O37: the cursor form from offset 0 is the run on the whole buffer. -/
theorem cursorFormAgrees : Obligations.CursorFormAgrees := fun B => runCursor_eq_runBytes B.length B 0

end Sys2Proof.Machine
end

section
/-! The decision function (R151): each test read off the buffer's first bytes, the temperature checksum as the sum of
R180, quiescence (R150, R161), and what the bytes after a decision do not change (R162, R164). -/

namespace Sys2Proof.Machine

/-! ### The temperature checksum as R180's sum -/

/-- The word at an even offset is the word of that index (R54). -/
theorem wordAt_two_mul (B : List Byte) (w : Nat) : wordAt B (2 * w) = (words B)[w]? := by
  rw [← List.head?_drop, ← words_drop, wordAt]
  match B.drop (2 * w) with
  | [] | [_] | _ :: _ :: _ => rfl

/-- A list read by its indices is the list. -/
theorem map_range_getElem?_getD (l : List Half) :
    ((List.range l.length).map fun w => (l[w]?.map BitVec.toNat).getD 0) = l.map BitVec.toNat :=
  List.ext_getElem (by simp) fun w _ hw => by
    have hw : w < l.length := by simpa using hw
    simp [hw]

/-- R180's sum is the sum of the first 771 words of the frame. -/
theorem wordSum_eq_sumHalves {F : List Byte} (h : checksumOffset ≤ F.length) :
    wordSum F = sumHalves (words (F.take checksumOffset)) := by
  have hlen : (words (F.take checksumOffset)).length = 771 := by
    rw [words_length, List.length_take, Nat.min_eq_left h]; rfl
  have hword : ∀ w < 771, wordAt F (2 * w) = (words (F.take checksumOffset))[w]? := by
    intro w hw
    rw [wordAt_two_mul, show checksumOffset = 2 * 771 from rfl, words_take, List.getElem?_take_of_lt hw]
  rw [sumHalves, ← map_range_getElem?_getD, hlen, wordSum]
  refine congrArg List.sum (List.map_congr_left fun w hw => ?_)
  rw [hword w (List.mem_range.1 hw)]

/-- The temperature checksum is R180's sum, mod 65536. -/
theorem tempSum_toNat {F : List Byte} (h : checksumOffset ≤ F.length) : (tempSum F).toNat = wordSum F % 65536 := by
  rw [wordSum_eq_sumHalves h, tempSum, BitVec.toNat_ofNat]; rfl

/-- The checksum reads no byte from the checksum field on (R180). -/
theorem tempSum_take {n : Nat} (h : checksumOffset ≤ n) (F : List Byte) : tempSum (F.take n) = tempSum F := by
  rw [tempSum, tempSum, List.take_take, Nat.min_eq_left h]

/-! ### The tests of DECIDE -/

/-- A buffer by its first four bytes. -/
theorem eq_four_cons {B : List Byte} {b0 b1 b2 b3 : Byte} (h0 : B[0]? = some b0) (h1 : B[1]? = some b1)
    (h2 : B[2]? = some b2) (h3 : B[3]? = some b3) : B = b0 :: b1 :: b2 :: b3 :: B.drop 4 := by
  rw [← drop_eq_two h2 h3]; exact drop_eq_two h0 h1

/-- A temperature candidate by its first four bytes (R155, R156). -/
theorem tempHead_iff {B : List Byte} : TempHead B ↔ ∃ rest, B = hdrByte :: hdrByte :: 0x02#8 :: 0x06#8 :: rest := by
  constructor
  · rintro ⟨h0, h1, h2, h3⟩
    exact ⟨_, eq_four_cons h0 h1 h2 h3⟩
  · rintro ⟨rest, rfl⟩
    exact ⟨rfl, rfl, rfl, rfl⟩

/-- DECIDE without a header at offset 0 (R154). -/
theorem decision_resync {B : List Byte} (hl : 4 ≤ B.length) (hh : ¬ (B[0]? = some 0x5A#8 ∧ B[1]? = some 0x5A#8)) :
    decision B = .ok .resync := by
  obtain hs | ⟨b0, b1, b2, b3, rest, rfl⟩ := short_or_cons B
  · omega
  · rw [decision_cons, if_pos (by simpa [hdrByte] using hh)]

/-- DECIDE on an incomplete temperature candidate (R155). -/
theorem decision_tempWait {B : List Byte} (ht : TempHead B) (hl : B.length < 1544) : decision B = .ok .tempWait := by
  obtain ⟨rest, rfl⟩ := tempHead_iff.1 ht
  rw [decision_cons, if_neg (by simp), if_pos ⟨rfl, rfl⟩, if_pos (by simp only [List.length_cons] at hl; omega)]

/-- DECIDE on a complete temperature candidate: the checksum test (R156, R157). -/
theorem decision_tempHead {B : List Byte} (ht : TempHead B) (hl : 1544 ≤ B.length) {stored : Half}
    (hs : wordAt B checksumOffset = some stored) :
    decision B = if stored.toNat = (tempSum B).toNat then .ok .tempAccept else .ok .tempReject := by
  obtain ⟨rest, rfl⟩ := tempHead_iff.1 ht
  rw [decision_cons, if_neg (by simp), if_pos ⟨rfl, rfl⟩, if_neg (by simp only [List.length_cons] at hl; omega), hs,
    tempSum_take (by decide)]
  simp only [Option.some.injEq, BitVec.toNat_inj]

/-- DECIDE on an emissivity candidate: the checksum test (R158, R159). -/
theorem decision_emisBytes {v c : Byte} (ht : ¬ (v = 0x02#8 ∧ c = 0x06#8)) (rest : List Byte) :
    decision (emisBytes v c ++ rest) =
      if c.toNat = (0xB4 + v.toNat) % 256 then .ok .emisAccept else .ok .emisReject := by
  rw [← ecs_toNat]
  simp only [emisBytes, List.cons_append, List.nil_append, decision_cons, and_self, not_true_eq_false, if_false,
    if_neg ht, BitVec.toNat_inj]

/-- Settles O21: one lemma for each outcome of the tests. -/
theorem decisionByTests : Obligations.DecisionByTests := by
  intro B
  refine ⟨decision_short, decision_resync, decision_tempWait, fun ht hl stored hs => ?_, fun h0 h1 v c h2 h3 hne => ?_⟩
  · rw [decision_tempHead ht hl hs, tempSum_toNat (le_trans (by decide) hl)]
    exact ⟨fun h => if_pos h.symm, fun h => if_neg h.symm⟩
  · have hB : B = emisBytes v c ++ B.drop 4 := eq_four_cons h0 h1 h2 h3
    rw [hB, decision_emisBytes hne]
    exact ⟨fun h => if_pos h, fun h => if_neg h⟩

/-! ### Quiescence -/

/-- R150's formula. -/
theorem quiescent_iff {B : List Byte} : quiescent B = true ↔ B.length < 4 ∨ (TempHead B ∧ B.length < 1544) := by
  obtain hs | ⟨b0, b1, b2, b3, rest, rfl⟩ := short_or_cons B
  · exact iff_of_true ((quiescent_iff_decision B).2 (.inl (decision_short hs))) (.inl hs)
  · have h4 : ¬ (b0 :: b1 :: b2 :: b3 :: rest).length < 4 := by simp
    have hl : (b0 :: b1 :: b2 :: b3 :: rest).length < 1544 ↔ rest.length < 1540 := Nat.add_lt_add_iff_right (k := 4)
    rw [quiescent_cons, hl, or_iff_right h4]
    simp [TempHead, hdrByte, and_assoc]

/-- While the buffer is quiescent no SCAN step is enabled (R150, R153, R155). -/
theorem scanEnabled_of_quiescent {s : State} (h : quiescent s.inb.buf = true) : scanEnabled s = false := by
  obtain h | h := (quiescent_iff_decision _).1 h <;> rw [scanEnabled, h]

/-- Settles O22: R150's formula, the two decisions that are no step, and what the ports and the scanner then do. -/
theorem quiescentExactlyWhenNoStep : Obligations.QuiescentExactlyWhenNoStep := by
  refine fun B => ⟨quiescent_iff, quiescent_iff_decision B, fun s hB hq => ?_⟩
  subst hB
  exact ⟨scanEnabled_of_quiescent hq, hq⟩

/-- Settles O23: the receive port is ready in a quiescent state only, and R150's formula bounds LEN there. -/
theorem quiescentBufferIsShort : Obligations.QuiescentBufferIsShort := by
  intro s hq
  refine ⟨?_, Nat.le_of_lt_succ (quiescent_length_lt hq)⟩
  by_cases h4 : s.inb.buf.length < 4
  · exact .inl (Nat.le_of_lt_succ h4)
  · obtain ⟨ht, hl⟩ := (quiescent_iff.1 hq).resolve_left h4
    exact .inr ⟨not_lt.1 h4, Nat.le_of_lt_succ hl, ht⟩

/-! ### What a decision reads -/

/-- Settles O24: DECIDE and its record read below LEN, and its advance is at most LEN. -/
theorem decisionReadsWithinFill : Obligations.DecisionReadsWithinFill := by
  intro n
  obtain ⟨d, hd⟩ := exists_decision n.buf
  obtain ⟨ev, hev, -⟩ := eventOf_ok hd
  have hle : d.adv ≤ n.buf.length := adv_le hd
  refine ⟨d, ev, _, hd, hev, compact_ok hle, ?_⟩
  simp only [List.length_drop]; omega

/-- Settles O25: a decision that advances is taken off quiescence, and its record is read from the bytes it discards. -/
theorem decisionMonotone : Obligations.DecisionMonotone := by
  intro B C d hd h0
  rw [ne_eq, decision_adv_eq_zero_iff hd, Bool.not_eq_true] at h0
  exact ⟨(decision_append h0 C).trans hd, eventOf_append (adv_le hd) C⟩

end Sys2Proof.Machine
end

section
/-! The SCAN step (R152): when it is enabled, what it then changes, what it leaves when it is not, and its trace (R166). -/

namespace Sys2Proof.Machine

/-! ### Enabled and held steps -/

/-- A SCAN step is enabled exactly when its decision advances and EVQ has room for its record, if it has one (R152). -/
theorem scanEnabled_iff_advance {s : State} {d : Decision} {ev : Option Event} (hd : decision s.inb.buf = .ok d)
    (he : eventOf d s.inb.buf = .ok ev) :
    scanEnabled s = true ↔ d.adv ≠ 0 ∧ (ev.isSome → s.inb.evq.length < s.cfg.evDepth) := by
  obtain ⟨ev', he', hsome⟩ := eventOf_ok hd
  obtain rfl : ev' = ev := Except.ok.inj (he'.symm.trans he)
  rw [hsome, scanEnabled, hd]
  cases d <;> simp [Decision.adv]

/-- A SCAN step is enabled exactly when the buffer is not quiescent and no accepting decision is held (R152, R160). -/
theorem scanEnabled_iff (s : State) : scanEnabled s = true ↔ quiescent s.inb.buf = false ∧
    ¬ (s.cfg.evDepth ≤ s.inb.evq.length ∧
      (decision s.inb.buf = .ok .tempAccept ∨ decision s.inb.buf = .ok .emisAccept)) := by
  obtain ⟨d, hd⟩ := exists_decision s.inb.buf
  obtain ⟨ev, he, hsome⟩ := eventOf_ok hd
  rw [scanEnabled_iff_advance hd he, ne_eq, decision_adv_eq_zero_iff hd, Bool.not_eq_true, hsome, hd, not_and',
    not_le, Except.ok.injEq, Except.ok.injEq]

/-- An advancing decision with room for its record is taken, and this is all it changes (R152). -/
theorem scan_of_advance {s : State} {d : Decision} {ev : Option Event} (hd : decision s.inb.buf = .ok d)
    (he : eventOf d s.inb.buf = .ok ev) (h0 : d.adv ≠ 0) (hroom : ev.isSome → s.inb.evq.length < s.cfg.evDepth) :
    scan s = .next { s with inb := { s.inb with
      buf := s.inb.buf.drop d.adv
      posCount := s.inb.posCount + d.adv
      evq := s.inb.evq ++ ev.toList
      trace := s.inb.trace ++ (if s.cfg.dbgTrace then traceRecords d (s.inb.buf.drop d.adv) else []) } } := by
  obtain ⟨d', ev', hd', he', h⟩ := scanInbound_cases s.cfg s.inb
  obtain rfl : d' = d := Except.ok.inj (hd'.symm.trans hd)
  obtain rfl : ev' = ev := Except.ok.inj (he'.symm.trans he)
  obtain ⟨hz, -⟩ | ⟨-, hsome, hfull, -⟩ | ⟨-, -, h⟩ := h
  · exact absurd hz h0
  · exact absurd (hroom hsome) (not_lt.2 hfull)
  · rw [scan, h, scanned, traceStep_eq]; rfl

/-- A SCAN step that is not enabled changes nothing (R152). -/
theorem scan_of_not_enabled {s : State} (h : scanEnabled s = false) : scan s = .next s := by
  obtain ⟨d, ev, hd, he, ⟨-, hs⟩ | ⟨-, -, -, hs⟩ | ⟨h0, hroom, -⟩⟩ := scanInbound_cases s.cfg s.inb
  · simp [scan, hs]
  · simp [scan, hs]
  · simp [(scanEnabled_iff_advance hd he).2 ⟨h0, hroom⟩] at h

/-- Settles O33: an enabled step discards its advance, which is not 0. -/
theorem enabledScanShrinks : Obligations.EnabledScanShrinks := by
  refine fun s => ⟨fun h => ?_, scan_of_not_enabled, scanEnabled_iff s⟩
  obtain ⟨d, hd⟩ := exists_decision s.inb.buf
  obtain ⟨ev, he, -⟩ := eventOf_ok hd
  obtain ⟨h0, hroom⟩ := (scanEnabled_iff_advance hd he).1 h
  refine ⟨_, scan_of_advance hd he h0 hroom, ?_⟩
  have hle : d.adv ≤ s.inb.buf.length := adv_le hd
  simp only [List.length_drop]; omega

/-- An accepting decision with EVQ full is not enabled (R152). -/
theorem scanEnabled_of_held {s : State} (hfull : s.cfg.evDepth ≤ s.inb.evq.length)
    (hd : decision s.inb.buf = .ok .tempAccept ∨ decision s.inb.buf = .ok .emisAccept) : scanEnabled s = false := by
  rw [← Bool.not_eq_true, scanEnabled_iff]
  exact fun h => h.2 ⟨hfull, hd⟩

/-- A frame's meaning is the SCAN step or nothing, so it changes nothing where a SCAN step changes nothing. -/
theorem scanFrame_of_scan_eq {s : State} (h : scan s = .next s) (F : List Byte) : scanFrame F s = .next s := by
  obtain ⟨-, hf⟩ | ⟨-, hf⟩ := scanFrame_cases F s
  · exact hf.trans h
  · exact hf

/-- Settles O30: the held step is not enabled, and a buffer with an accepting decision is not quiescent. -/
theorem acceptHeldWhileQueueFull : Obligations.AcceptHeldWhileQueueFull := by
  intro s hfull hd
  have hen : scanEnabled s = false := scanEnabled_of_held hfull hd
  have hscan : scan s = .next s := scan_of_not_enabled hen
  have hready : rxReady s = false := by
    rw [rxReady, ← Bool.not_eq_true, quiescent_iff_decision]
    obtain hd | hd := hd <;> simp [hd]
  exact ⟨hscan, hen, hready, fun _ _ _ => scanFrame_of_scan_eq hscan _, fun _ _ => scanFrame_of_scan_eq hscan _⟩

/-- A frame that does not stand at offset 0 is no decision (log 3). -/
theorem scanFrame_of_not_prefix {F : List Byte} {s : State} (h : ¬ F <+: s.inb.buf) : scanFrame F s = .next s := by
  obtain ⟨hp, -⟩ | ⟨-, hf⟩ := scanFrame_cases F s
  · exact absurd hp h
  · exact hf

/-- Settles O31: both rows are the decision on their frame, which the scanner finds at offset 0 only. -/
theorem frameNotAtHead : Obligations.FrameNotAtHead :=
  ⟨fun _ _ _ _ => scanFrame_of_not_prefix, fun _ _ _ => scanFrame_of_not_prefix⟩

/-! ### The scanner's move -/

/-- The scanner's move is the SCAN step on the state with the move made. -/
theorem step_scan {s : State} (h : nextTurn s = some .scan) : step s = scan (popTurn s) := by
  rw [step_some h, scan_effect]

/-- Settles O32: RESYNC has no record and an advance of 1; the other two leave the scanner without an enabled step. -/
theorem resyncShortAndWait : Obligations.ResyncShortAndWait := by
  intro s hs
  rw [step_scan hs]
  refine ⟨fun hl hh => ?_, fun hl => ?_, fun ht hl => ?_⟩
  · rw [scan_of_advance (s := popTurn s) (decision_resync hl hh) rfl nofun nofun]
    simp [Decision.adv]
  · exact scan_of_not_enabled (scanEnabled_of_quiescent (s := popTurn s) (quiescent_iff.2 (.inl hl)))
  · exact scan_of_not_enabled (scanEnabled_of_quiescent (s := popTurn s) (quiescent_iff.2 (.inr ⟨ht, hl⟩)))

/-! ### The decision trace -/

/-- Off quiescence a SCAN step outputs its own record (R166). -/
theorem traceRecords_of_not_quiescent (d : Decision) {B : List Byte} (h : quiescent B = false) :
    traceRecords d B = [⟨d, d.adv⟩] := by simp [traceRecords, h]

/-- Into SHORT a SCAN step outputs its own record and `(SHORT, 0)` (R166). -/
theorem traceRecords_of_short (d : Decision) {B : List Byte} (h : B.length < 4) :
    traceRecords d B = [⟨d, d.adv⟩, ⟨.short, 0⟩] := by
  simp [traceRecords, quiescent_iff, minDecide, h]

/-- Into TEMP_WAIT a SCAN step outputs its own record and `(TEMP_WAIT, 0)` (R166). -/
theorem traceRecords_of_tempWait (d : Decision) {B : List Byte} (ht : TempHead B) (hl : B.length < 1544) :
    traceRecords d B = [⟨d, d.adv⟩, ⟨.tempWait, 0⟩] := by
  obtain ⟨rest, rfl⟩ := tempHead_iff.1 ht
  rw [traceRecords, if_pos (quiescent_iff.2 (.inr ⟨ht, hl⟩)), if_neg (by simp [minDecide])]

/-- The advance of an advancing decision (R28, R152). -/
theorem adv_of_ne_zero {d : Decision} (h : d.adv ≠ 0) :
    d = .tempAccept ∧ d.adv = 1544 ∨ d = .emisAccept ∧ d.adv = 4 ∨
      (d = .resync ∨ d = .tempReject ∨ d = .emisReject) ∧ d.adv = 1 := by
  cases d <;> simp [Decision.adv] at h ⊢

/-- Settles O59: an enabled step is an advancing decision, and it outputs the records for the bytes it leaves. -/
theorem decisionTrace : Obligations.DecisionTrace := by
  intro s t d hd hen ht
  obtain ⟨ev, he, -⟩ := eventOf_ok hd
  obtain ⟨h0, hroom⟩ := (scanEnabled_iff_advance hd he).1 hen
  rw [scan_of_advance hd he h0 hroom] at ht
  cases ht
  refine ⟨fun hc => by simp [hc], fun hc => ⟨d.adv, adv_of_ne_zero h0, fun hq => ?_, fun hl => ?_, fun hh hl => ?_⟩⟩
  · simp [hc, traceRecords_of_not_quiescent d hq]
  · simp [hc, traceRecords_of_short d hl]
  · simp [hc, traceRecords_of_tempWait d hh hl]

end Sys2Proof.Machine
end

section
/-! Frames at the head of the buffer: the decision on the bytes of a TEMP or an EMIS row, its record, and what the row's
meaning then changes (R156 to R159, R165). -/

namespace Sys2Proof.Machine

/-- A frame at offset 0 means the SCAN step (R152). -/
theorem scanFrame_of_append {F rest : List Byte} {s : State} (h : s.inb.buf = F ++ rest) : scanFrame F s = scan s := by
  obtain ⟨-, hf⟩ | ⟨hn, -⟩ := scanFrame_cases F s
  · exact hf
  · exact absurd (h ▸ List.prefix_append F rest) hn

/-! ### Temperature frames -/

/-- The words of a buffer with a temperature frame at offset 0 (R83). -/
theorem words_tempBytes_append (samples : List Half) (ambient checksum : Half) (rest : List Byte) :
    words (tempBytes samples ambient checksum ++ rest) =
      0x5A5A#16 :: tempType :: (samples ++ ambient :: checksum :: words rest) := by
  have hunwords : tempBytes samples ambient checksum =
      unwords (0x5A5A#16 :: tempType :: (samples ++ [ambient, checksum])) := rfl
  rw [hunwords, words_append _ _ (by simp), words_unwords]
  simp

/-- A field of a buffer that has a word there is read as that word (R55). -/
theorem readHalf_of_wordAt {B : List Byte} {o : Nat} {w : Half} (h : wordAt B o = some w) : readHalf B o = .ok w := by
  have hlen : (B.drop o).length = B.length - o := List.length_drop
  unfold wordAt at h
  split at h
  · rename_i lo hi tl hd
    cases h
    simp only [hd, List.length_cons] at hlen
    rw [readHalf, memRead_ok (by omega), hd]; rfl
  · cases h

/-- The samples of the frame at offset 0 by the buffer's words (R182). -/
theorem samplesOf_take (B : List Byte) :
    samplesOf (B.take frameSize) = (((words B).drop 2).take nSamples).map s16 := by
  rw [samplesOf, words_take, show sampleOffset = 2 * 2 from rfl, words_drop, show frameSize = 2 * 772 from rfl,
    words_take, List.drop_take, List.take_take]
  rfl

section
variable {samples : List Half} (h : samples.length = 768) (ambient checksum : Half) (rest : List Byte)
include h

theorem wordAt_ambient : wordAt (tempBytes samples ambient checksum ++ rest) ambientOffset = some ambient := by
  rw [show ambientOffset = 2 * 770 from rfl, wordAt_two_mul, words_tempBytes_append]
  simp [← h]

theorem wordAt_checksum : wordAt (tempBytes samples ambient checksum ++ rest) checksumOffset = some checksum := by
  rw [show checksumOffset = 2 * 771 from rfl, wordAt_two_mul, words_tempBytes_append]
  simp [List.getElem?_append_right, h]

/-- The temperature checksum of a frame is the sum of its fields (R180, R181). -/
theorem tempSum_tempBytes_append :
    (tempSum (tempBytes samples ambient checksum ++ rest)).toNat =
      (0x5A5A + 0x0602 + sumHalves samples + ambient.toNat) % 65536 := by
  have htake : (words (tempBytes samples ambient checksum ++ rest)).take 771 =
      0x5A5A#16 :: tempType :: (samples ++ [ambient]) := by
    simp [words_tempBytes_append, List.take_append, h]
  rw [tempSum, show checksumOffset = 2 * 771 from rfl, words_take, htake, BitVec.toNat_ofNat]
  simp [sumHalves, tempType]; omega

/-- The decision on a temperature frame at offset 0 is its checksum test (R156, R157). -/
theorem decision_tempBytes_append :
    decision (tempBytes samples ambient checksum ++ rest) =
      if checksum.toNat = (0x5A5A + 0x0602 + sumHalves samples + ambient.toNat) % 65536 then .ok .tempAccept
      else .ok .tempReject := by
  have hhead : TempHead (tempBytes samples ambient checksum ++ rest) := tempHead_iff.2 ⟨_, rfl⟩
  have hlen : 1544 ≤ (tempBytes samples ambient checksum ++ rest).length := by simp [h]
  rw [decision_tempHead hhead hlen (wordAt_checksum h ambient checksum rest), tempSum_tempBytes_append h]

/-- The record of a temperature frame at offset 0 (R182, R183). -/
theorem decodeTemp_tempBytes_append :
    decodeTemp (tempBytes samples ambient checksum ++ rest) =
      .ok (.temp (samples.map BitVec.toInt) ambient.toInt) := by
  have hsamples : samplesOf ((tempBytes samples ambient checksum ++ rest).take frameSize) =
      samples.map BitVec.toInt := by
    rw [samplesOf_take, words_tempBytes_append, List.drop_succ_cons, List.drop_succ_cons, List.drop_zero,
      List.take_left' (show samples.length = nSamples from h), funext s16_eq_toInt]
  rw [decodeTemp, memRead_ok (by simp [h, frameSize]), readHalf_of_wordAt (wordAt_ambient h ambient checksum rest),
    List.drop_zero]
  simp [hsamples, s16_eq_toInt, bind, Except.bind, pure, Except.pure]

end

/-- Settles O26: the decision is TEMP_ACCEPT, and its record and its advance are the frame's. -/
theorem tempFrameAccepted : Obligations.TempFrameAccepted := by
  intro samples ambient checksum rest s h hbuf hsum hroom
  have hd : decision s.inb.buf = .ok .tempAccept := by
    rw [hbuf, decision_tempBytes_append h, if_pos hsum]
  have he : eventOf .tempAccept s.inb.buf = .ok (some (.temp (samples.map BitVec.toInt) ambient.toInt)) := by
    rw [hbuf, eventOf, decodeTemp_tempBytes_append h]; rfl
  have hrest : s.inb.buf.drop 1544 = rest := by rw [hbuf, List.drop_left' (by simp [h])]
  rw [exec, execTempFrame, scanFrame_of_append hbuf, scan_of_advance hd he (by decide) fun _ => hroom]
  simp [Decision.adv, hrest]

/-- A rejecting decision has no record, so it is taken whatever EVQ holds, and it discards one byte (R157, R159). -/
theorem scan_of_reject {s : State} {d : Decision} (hd : decision s.inb.buf = .ok d)
    (hr : d = .tempReject ∨ d = .emisReject) :
    scan s = .next { s with inb := { s.inb with
      buf := s.inb.buf.drop 1
      posCount := s.inb.posCount + 1
      trace := s.inb.trace ++ (if s.cfg.dbgTrace then traceRecords d (s.inb.buf.drop 1) else []) } } := by
  have he : eventOf d s.inb.buf = .ok none := by obtain rfl | rfl := hr <;> rfl
  have hadv : d.adv = 1 := by obtain rfl | rfl := hr <;> rfl
  rw [scan_of_advance hd he (by rw [hadv]; decide) nofun, hadv]
  simp

/-- Settles O27: the decision is TEMP_REJECT. -/
theorem tempFrameRejected : Obligations.TempFrameRejected := by
  intro samples ambient checksum rest s h hbuf hsum
  have hd : decision s.inb.buf = .ok .tempReject := by
    rw [hbuf, decision_tempBytes_append h, if_neg hsum]
  exact (scanFrame_of_append hbuf).trans (scan_of_reject hd (.inl rfl))

/-! ### Emissivity frames -/

/-- A valid emissivity frame is no temperature candidate: the checksum of 02 is B6 (R165). -/
theorem emis_ne_tempType {v c : Byte} (h : c.toNat = (0xB4 + v.toNat) % 256) : ¬ (v = 0x02#8 ∧ c = 0x06#8) := by
  rintro ⟨rfl, rfl⟩
  exact absurd h (by decide)

/-- DECIDE on a valid emissivity frame (R158). -/
theorem decision_emisBytes_of_valid {v c : Byte} (h : c.toNat = (0xB4 + v.toNat) % 256) (rest : List Byte) :
    decision (emisBytes v c ++ rest) = .ok .emisAccept := by
  rw [decision_emisBytes (emis_ne_tempType h), if_pos h]

/-- The record of an emissivity frame at offset 0 (R187). -/
theorem decodeEmis_emisBytes_append (v c : Byte) (rest : List Byte) :
    decodeEmis (emisBytes v c ++ rest) = .ok (.emis v) := by
  rw [decodeEmis, readByte_ok (b := v) rfl]; rfl

/-- Settles O28: the decision is EMIS_ACCEPT, and its record and its advance are the frame's. -/
theorem emisFrameAccepted : Obligations.EmisFrameAccepted := by
  intro value checksum rest s hbuf hsum hroom
  have hd : decision s.inb.buf = .ok .emisAccept := by rw [hbuf, decision_emisBytes_of_valid hsum]
  have he : eventOf .emisAccept s.inb.buf = .ok (some (.emis value)) := by
    rw [hbuf, eventOf, decodeEmis_emisBytes_append]; rfl
  have hrest : s.inb.buf.drop 4 = rest := by rw [hbuf, List.drop_left' (emisBytes_length value checksum)]
  rw [exec, execEmisFrame, scanFrame_of_append hbuf, scan_of_advance hd he (by decide) fun _ => hroom]
  simp [Decision.adv, hrest]

/-- Settles O29: the decision is EMIS_REJECT. -/
theorem emisFrameRejected : Obligations.EmisFrameRejected := by
  intro value checksum rest s hbuf hne hsum
  have hd : decision s.inb.buf = .ok .emisReject := by rw [hbuf, decision_emisBytes hne, if_neg hsum]
  exact (scanFrame_of_append hbuf).trans (scan_of_reject hd (.inr rfl))

/-- Settles O43: a valid frame is no temperature type, so decoder and decision both take it for what it is. -/
theorem emisFrameNeverTemp : Obligations.EmisFrameNeverTemp := fun _ _ rest h =>
  ⟨(wellFormed_emisFrame ..).2 (emis_ne_tempType h), decodeStream_emisBytes_append (emis_ne_tempType h) rest,
    decision_emisBytes_of_valid h rest⟩

end Sys2Proof.Machine
end

section
/-! The checksums and the decoders of the inbound frames (R180 to R191): the temperature checksum as a sum of words, what
a one-byte change does to it, and the record read by index. -/

namespace Sys2Proof.Machine

/-! ### The temperature checksum (R180, R181) -/

/-- Settles O38: R180's sum, over bytes that all lie below offset 1542. -/
theorem tempChecksumIsWordSum : Obligations.TempChecksumIsWordSum := by
  intro F hF
  refine ⟨tempSum_toNat hF, fun G => ?_⟩
  have htake : (F.take 1542 ++ G).take 1542 = F.take 1542 :=
    List.take_left' (by rw [List.length_take, Nat.min_eq_left hF])
  rw [← tempSum_take (n := 1542) le_rfl (F.take 1542 ++ G), htake, tempSum_take (n := 1542) le_rfl]

/-- The two readings of a field agree mod 2^16 (R13). -/
theorem toInt_modEq_toNat (w : Half) : w.toInt ≡ w.toNat [ZMOD 65536] := by
  rw [BitVec.toInt_eq_toNat_cond, Int.ModEq]
  split <;> omega

/-- The signed sum of fields is their unsigned sum mod 2^16 (R181). -/
theorem sum_toInt_modEq_sumHalves (ws : List Half) : (ws.map BitVec.toInt).sum ≡ sumHalves ws [ZMOD 65536] := by
  induction ws with
  | nil => rfl
  | cons w ws ih => simpa [sumHalves] using (toInt_modEq_toNat w).add ih

/-- The header and the type give the checksum its constant 0x605C (R181). -/
theorem tempSum_tempBytes {samples : List Half} (h : samples.length = 768) (ambient checksum : Half) :
    (tempSum (tempBytes samples ambient checksum)).toNat = (0x605C + sumHalves samples + ambient.toNat) % 65536 := by
  simpa using tempSum_tempBytes_append h ambient checksum []

/-- The checksum of a frame whose samples and ambient are all the same field. -/
theorem tempSum_tempBytes_replicate (w checksum : Half) :
    (tempSum (tempBytes (List.replicate 768 w) w checksum)).toNat = (0x605C + 769 * w.toNat) % 65536 := by
  rw [tempSum_tempBytes List.length_replicate, sumHalves, List.map_replicate, List.sum_replicate, smul_eq_mul]
  congr 1; ring

/-- Settles O39: the sum of the fields, their two readings mod 2^16, and the frames of one repeated field. -/
theorem tempChecksumIdentities : Obligations.TempChecksumIdentities := by
  refine ⟨fun samples ambient checksum h => ⟨tempSum_tempBytes h .., ?_⟩, fun checksum => ?_, fun checksum => ?_⟩
  · have hfields : 0x605C + (samples.map BitVec.toInt).sum + ambient.toInt ≡
        0x605C + sumHalves samples + ambient.toNat [ZMOD 65536] :=
      ((sum_toInt_modEq_sumHalves samples).add_left _).add (toInt_modEq_toNat ambient)
    rw [tempSum_tempBytes h, hfields.eq]
    push_cast; rfl
  · exact BitVec.eq_of_toNat_eq (tempSum_tempBytes_replicate ..)
  · exact BitVec.eq_of_toNat_eq (tempSum_tempBytes_replicate ..)

/-! ### The temperature decoder (R182, R183) -/

/-- Sample `k` is the word at offset 4 + 2k (R182). -/
theorem samplesOf_take_getElem? (F : List Byte) {k : Nat} (hk : k < 768) :
    (samplesOf (F.take frameSize))[k]? = (wordAt F (4 + 2 * k)).map BitVec.toInt := by
  rw [samplesOf_take, List.getElem?_map, List.getElem?_take_of_lt (show k < nSamples from hk), List.getElem?_drop,
    show 4 + 2 * k = 2 * (2 + k) by omega, wordAt_two_mul, funext s16_eq_toInt]

/-- A sequence has a word at every offset with two bytes from there on. -/
theorem exists_wordAt {F : List Byte} {o : Nat} (h : o + 2 ≤ F.length) : ∃ w, wordAt F o = some w := by
  obtain ⟨lo, hi, hlo, hhi⟩ := exists_two_bytes h
  exact ⟨le16 lo hi, by rw [wordAt, drop_eq_two hlo hhi]⟩

/-- Settles O40: the fields of the decoder's record, which is legal as every record of the decoder is. -/
theorem tempDecodeByIndex : Obligations.TempDecodeByIndex := by
  intro F hF
  obtain ⟨ambient, ha⟩ : ∃ w, wordAt F ambientOffset = some w := exists_wordAt (le_trans (by decide) hF)
  have hd : decodeTemp F = .ok (.temp (samplesOf (F.take frameSize)) ambient.toInt) := by
    rw [decodeTemp, memRead_ok (n := frameSize) (by simpa [frameSize] using hF), readHalf_of_wordAt ha, ← s16_eq_toInt]; rfl
  have hok := decodeTemp_event_ok hd
  refine ⟨_, _, hd, hok.1, fun k => samplesOf_take_getElem? F, ?_, hok⟩
  rw [show 1540 = ambientOffset from rfl, ha]; rfl

/-! ### A one-byte change (R189, R190) -/

/-- A change of byte `k` is a change of word `k / 2` and of no other. -/
theorem words_set : ∀ (B : List Byte) (k : Nat) {b : Byte}, B[k]? ≠ some b →
    ∃ w, words (B.set k b) = (words B).set (k / 2) w ∧ (words B)[k / 2]? ≠ some w
  | [], _, _, _ => ⟨0, rfl, by simp [words]⟩
  | [_], k, _, _ => ⟨0, by cases k <;> rfl, by simp [words]⟩
  | lo :: hi :: rest, 0, b, h => ⟨le16 b hi, rfl, fun he => h <| by
      simpa using congrArg loByte (Option.some.inj he)⟩
  | lo :: hi :: rest, 1, b, h => ⟨le16 lo b, rfl, fun he => h <| by
      simpa using congrArg hiByte (Option.some.inj he)⟩
  | lo :: hi :: rest, k + 2, b, h => by
    obtain ⟨w, hset, hne⟩ := words_set rest k h
    refine ⟨w, ?_, ?_⟩
    · simp [words, hset]
    · simpa [words] using hne

/-- The temperature checksum as a sum in the 16-bit words themselves, where a changed summand cancels (R180). -/
theorem tempSum_eq_sum (B : List Byte) : tempSum B = ((words B).take 771).sum := by
  rw [tempSum, show checksumOffset = 2 * 771 from rfl, words_take]
  induction (words B).take 771 with
  | nil => rfl
  | cons w ws ih =>
    rw [List.map_cons, List.sum_cons, List.sum_cons, BitVec.ofNat_add, ih, BitVec.ofNat_toNat, BitVec.setWidth_eq]

/-- One changed word changes the sum of a list of words. -/
theorem sum_set_ne {ws : List Half} {j : Nat} {w : Half} (hj : j < ws.length) (hw : ws[j]? ≠ some w) :
    (ws.set j w).sum ≠ ws.sum := by
  rw [List.sum_set', dif_pos hj, ne_eq, add_eq_left, neg_add_eq_zero]
  exact fun h => hw (by rw [List.getElem?_eq_getElem hj, h])

/-- Where word `n` is the sum of the words before it, a change of one word up to there breaks that. -/
theorem getElem?_set_ne_sum_take {ws : List Half} {n j : Nat} {w : Half} (hn : n < ws.length) (hj : j ≤ n)
    (hw : ws[j]? ≠ some w) (hsum : ws[n]? = some (ws.take n).sum) :
    (ws.set j w)[n]? ≠ some ((ws.set j w).take n).sum := by
  obtain rfl | hlt := hj.eq_or_lt
  · rw [List.getElem?_set_self hn, List.take_set_of_le le_rfl, ← hsum]
    exact hw.symm
  · have hne : ((ws.take n).set j w).sum ≠ (ws.take n).sum :=
      sum_set_ne (by rw [List.length_take]; omega) (by rwa [List.getElem?_take_of_lt hlt])
    rw [List.getElem?_set_ne hlt.ne, hsum, List.take_set]
    exact fun h => hne (Option.some.inj h).symm

/-- DECIDE on a complete temperature candidate by its words: the checksum test (R156, R157). -/
theorem decision_tempHead_words {B : List Byte} (ht : TempHead B) (hl : 1544 ≤ B.length) :
    decision B = if (words B)[771]? = some ((words B).take 771).sum then .ok .tempAccept else .ok .tempReject := by
  obtain ⟨stored, hw⟩ : ∃ w, wordAt B checksumOffset = some w := exists_wordAt hl
  rw [decision_tempHead ht hl hw, ← tempSum_eq_sum, ← wordAt_two_mul, show 2 * 771 = checksumOffset from rfl, hw]
  simp only [Option.some.injEq, BitVec.toNat_inj]

/-- Only a temperature candidate is accepted as a temperature frame (R156). -/
theorem tempHead_of_tempAccept {B : List Byte} (h : decision B = .ok .tempAccept) : TempHead B := by
  obtain hs | ⟨b0, b1, b2, b3, rest, rfl⟩ := short_or_cons B
  · cases (decision_short hs).symm.trans h
  · rw [decision_cons] at h
    have hhead : b0 = hdrByte ∧ b1 = hdrByte := by
      by_contra hn
      cases (if_pos hn).symm.trans h
    rw [if_neg (not_not.2 hhead)] at h
    have htype : b2 = 0x02#8 ∧ b3 = 0x06#8 := by
      by_contra hn
      rw [if_neg hn] at h
      split at h <;> cases h
    obtain ⟨⟨rfl, rfl⟩, rfl, rfl⟩ := And.intro hhead htype
    exact tempHead_iff.2 ⟨rest, rfl⟩

/-- Two temperature candidates agree on offsets 0..3. -/
theorem TempHead.getElem?_eq {F G : List Byte} (hF : TempHead F) (hG : TempHead G) {k : Nat} (hk : k < 4) :
    F[k]? = G[k]? := by
  obtain ⟨restF, rfl⟩ := tempHead_iff.1 hF
  obtain ⟨restG, rfl⟩ := tempHead_iff.1 hG
  interval_cases k <;> rfl

/-- A change from offset 4 on leaves a temperature candidate one. -/
theorem TempHead.set {F : List Byte} (hF : TempHead F) {k : Nat} (hk : 4 ≤ k) (b : Byte) : TempHead (F.set k b) := by
  obtain ⟨rest, rfl⟩ := tempHead_iff.1 hF
  obtain ⟨k, rfl⟩ := Nat.exists_eq_add_of_le' hk
  exact tempHead_iff.2 ⟨rest.set k b, rfl⟩

/-- Settles O41: from offset 4 on one word of the sum or the checksum changes, below it the head. -/
theorem tempSingleByteChangeDetected : Obligations.TempSingleByteChangeDetected := by
  intro F k b hF hd hk hb
  have ht : TempHead F := tempHead_of_tempAccept hd
  have hsum : (words F)[771]? = some ((words F).take 771).sum := by
    rw [decision_tempHead_words ht hF.ge] at hd
    by_contra hne
    cases (if_neg hne).symm.trans hd
  refine ⟨fun h4 => ?_, fun h4 ht' => hb ?_⟩
  · obtain ⟨w, hset, hw⟩ := words_set F k hb
    have hne := getElem?_set_ne_sum_take (by rw [words_length, hF]; decide) (show k / 2 ≤ 771 by omega) hw hsum
    rw [decision_tempHead_words (ht.set h4 b) (by rw [List.length_set, hF]), hset, if_neg hne]
  · rw [ht.getElem?_eq ht' h4, List.getElem?_set_self (hF ▸ hk)]

/-- Settles O42: the checksum 5A + 5A + v of a value is that of no other. -/
theorem emisSingleByteChangeDetected : Obligations.EmisSingleByteChangeDetected := by
  intro v c v' c' rest hc hchange
  have hne : c'.toNat ≠ (0xB4 + v'.toNat) % 256 := by
    obtain ⟨hv, rfl⟩ | ⟨rfl, hc'⟩ := hchange
    · have := BitVec.toNat_ne.1 hv
      omega
    · exact hc ▸ BitVec.toNat_ne.1 hc'
  refine ⟨hne, ?_⟩
  by_cases ht : v' = 0x02#8 ∧ c' = 0x06#8
  · exact .inr ht
  · exact .inl (by rw [decision_emisBytes ht, if_neg hne])

/-! ### What the checksums do not detect (R191) -/

/-- The sum of fields does not depend on their order. -/
theorem sumHalves_perm {xs ys : List Half} (h : xs.Perm ys) : sumHalves xs = sumHalves ys := (h.map _).sum_eq

/-- Settles O44: the checksum test sees the samples by their sum alone, and an emissivity frame by its two last bytes. -/
theorem checksumLimits : Obligations.ChecksumLimits := by
  refine ⟨fun xs ys ambient checksum rest h hperm => ?_, fun x rest _ => decision_emisBytes_of_valid (ecs_toNat x) rest⟩
  rw [decision_tempBytes_append h, decision_tempBytes_append (hperm.length_eq ▸ h), sumHalves_perm hperm]

end Sys2Proof.Machine
end

section
/-! No step and no operation ends in a fault or a refusal (R56, R164, R209, R210). -/

namespace Sys2Proof.Machine

/-- A request row answers a next state, whether RSP is empty or held (R32, R101). -/
theorem exec_request_next {i : Instr} (hi : isRequest i = true) (s : State) : ∃ t, exec i s = .next t :=
  let ⟨_, hr⟩ := exec_request_uniform hi s
  ⟨_, hr s rfl rfl⟩

/-- A CMD row answers a next state, whether or not RSP holds its frame (R33, log 2). -/
theorem exec_cmd_next {i : Instr} {b0 b1 b2 b3 : Byte} (he : encode i = .cmd b0 b1 b2 b3) (s : State) :
    ∃ t, exec i s = .next t := by
  by_cases h : s.rsp = .frame b0 b1 b2 b3
  · exact ⟨_, exec_cmd_of_held he h⟩
  · exact ⟨_, exec_cmd_of_not_held he h⟩

/-- An inbound operation answers a next state: no read and no COMPACT of it passes LEN (R132, R164). -/
theorem exec_inbound_next {i : Instr} (hi : isInbound i = true) (s : State) : ∃ t, exec i s = .next t :=
  let ⟨_, hn⟩ := exec_inbound_uniform hi s
  ⟨_, hn s rfl rfl⟩

/-- Every operation answers a next state (R209, R210). -/
theorem exec_next (i : Instr) (s : State) : ∃ t, exec i s = .next t := by
  cases i with
  | setBitrate | setUpdfreq | query | automatic | setEmis | getEmis | save | illegalOp7 => exact exec_request_next rfl s
  | cmdSetBitrate | cmdSetUpdfreq | cmdQuery | cmdAutomatic | cmdSetEmis | cmdGetEmis | cmdSave =>
    exact exec_cmd_next rfl s
  | tempFrame | emisFrame | rxPush => exact exec_inbound_next rfl s
  | reset => exact ⟨resetBlock s, rfl⟩
  | statusRead => exact ⟨readStatus s, rfl⟩

/-- Every step answers a next state: the effect of the move that is next, or the state as it is (R17, R217). -/
theorem step_next (s : State) : ∃ t, step s = .next t := by
  cases h : nextTurn s with
  | none => exact ⟨s, step_none h⟩
  | some m => exact ⟨turnEffect m (popTurn s), step_some h⟩

/-- Settles O49: a step is a total effect of its move, and each group of rows is a total effect on the state. -/
theorem nothingEverStops : Obligations.NothingEverStops := ⟨step_next, exec_next⟩

end Sys2Proof.Machine
end

section
/-! RESET (R230): what it leaves is clean (R42), and the status word of a clean state (R36). -/

namespace Sys2Proof.Machine

/-- RESET answers its effect on the block from any state, with no condition (R230). -/
theorem exec_reset_eq (s : State) : exec .reset s = .next (resetBlock s) := rfl

/-- R40's values are those that R42 names. -/
theorem resetBlock_clean (s : State) : (resetBlock s).Clean := ⟨rfl, rfl, rfl, rfl, rfl, rfl⟩

/-- Of the fields of STATUS a clean state shows QUIESCENT alone: the empty buffer is SHORT (R36, R150). -/
theorem State.Clean.statusWord_eq {s : State} (h : s.Clean) : statusWord s = 0x00020000#32 := by
  obtain ⟨hbuf, hovf, hevq, hrsp, -, -⟩ := h
  have hev : evPending s = false := by rw [evPending, hevq]; rfl
  have hfull : rspFull s = false := by rw [rspFull, hrsp]; rfl
  rw [statusWord, hbuf, hovf, hev, hfull]
  rfl

/-- Settles O18: the next state is the block at R40's values, which is clean, and a clean state fixes STATUS. -/
theorem resetClearsTheBlock : Obligations.ResetClearsTheBlock := fun s =>
  ⟨resetBlock s, exec_reset_eq s, rfl, resetBlock_clean s, (resetBlock_clean s).statusWord_eq⟩

end Sys2Proof.Machine
end
